-- ==== Sys2Proof/Word.lean ====
section
/-! DEFINITION. The types of the machine's values: the 16-bit word that every register, address and memory element is
(00_scope.md R5, R7, R12), the 8-bit character (43_trap.md R121 a) and the 3-bit register number (10_state.md R20). -/

namespace Sys2Proof

/-- "the machine's 16-bit storage and register granularity" (R12). Addresses are words too (R40). Addition on words is
`BitVec` addition: modulo 65536 (R10). -/
abbrev Word := BitVec 16

/-- A character: a byte 0 to 255 (R121 a, D25). -/
abbrev Byte := BitVec 8

/-- A general register's number, R0 to R7, as the 3-bit field that selects it (R20). -/
abbrev Reg := BitVec 3

/-- An opcode, `instr[15:12]` (R60). -/
abbrev Opcode := BitVec 4

end Sys2Proof
end

