-- ==== Sys2Proof/Config.lean ====
section
/-! DEFINITION. The parameters of the machine (00_scope.md R5, R6) as the fields of one record. Their values stand in
Machine/Params.lean. -/

namespace Sys2Proof

/-- The named parameters of R5 and R6. -/
structure Config where
  /-- `PC_RESET` (R5): where execution starts. -/
  pcReset : Word
  /-- `MEM_RESET` (R5): every word of memory before any image is loaded; what an unlisted address reads as. -/
  memReset : Word
  /-- `MEM_WORDS` (R5). -/
  memWords : Nat
  /-- `LINK_REG` (R5): the register JSR, JSRR and TRAP write. -/
  linkReg : Reg
  /-- `TRAP_ARG_REG` (R5): the register the trap routines read and write. -/
  trapArgReg : Reg
  /-- `REG_RESET[0..7]` (R6): open in the spec; the value used by `State.reset` only (log 5). -/
  regReset : Vector Word 8
  opBr : Opcode
  opAdd : Opcode
  opLd : Opcode
  opSt : Opcode
  opJsr : Opcode
  opAnd : Opcode
  opLdr : Opcode
  opStr : Opcode
  /-- `OP_RES_A` (R6), the first reserved opcode. -/
  opResA : Opcode
  opNot : Opcode
  opLdi : Opcode
  opSti : Opcode
  opJmp : Opcode
  /-- `OP_RES_B` (R6), the second reserved opcode. -/
  opResB : Opcode
  opLea : Opcode
  opTrap : Opcode
  /-- `OPCODE_FIELD` (R5): the lowest bit of the opcode. The positions below are each a field's lowest bit, too. -/
  posOpcode : Nat
  /-- `TRAPVECT_FIELD` (R5). -/
  posTrapvect8 : Nat
  /-- DR and SR (R6). -/
  posDR : Nat
  /-- SR1 and BaseR (R6). -/
  posSR1 : Nat
  posSR2 : Nat
  posImm5 : Nat
  posOffset6 : Nat
  posPCoffset9 : Nat
  posPCoffset11 : Nat
  /-- The mode bit of ADD and AND (R6). -/
  posM : Nat
  /-- The mode bit of JSR (R6). -/
  posL : Nat
  /-- The mask bits of BR (R6). -/
  posN : Nat
  posZ : Nat
  posP : Nat
  /-- `KBSR_ADDR` (R6): the status address. -/
  kbsrAddr : Word
  /-- `KBDR_ADDR` (R6): the data address. -/
  kbdrAddr : Word
  /-- `KBSR_READY_PRESERVES_LOW` (R6, D9). -/
  kbsrReadyPreservesLow : Bool
  tvGetc : Byte
  tvOut : Byte
  tvPuts : Byte
  tvIn : Byte
  tvPutsp : Byte
  tvHalt : Byte
  /-- `IN_PROMPT` (R6, D13): the bytes IN prints before it blocks. -/
  inPrompt : List Byte
  /-- `HALT_NOTICE` (R5, R6, D14). -/
  haltNotice : List Byte
  deriving DecidableEq, Repr

end Sys2Proof
end

