-- ==== Sys2Proof/Machine/Params.lean ====
section
/-! DEFINITION. The values of the parameters: those the source fixes (00_scope.md R5) and those the spec decides
(R6, 92_eei_decisions.md; logs 2, 3, 4, 5, 6, 13, 14). -/

namespace Sys2Proof

/-- The 19 ASCII bytes of the IN prompt, ending in a colon and one space (R125, D13). PRESUMED (log 13). -/
def promptBytes : List Byte :=
  [0x45, 0x6E, 0x74, 0x65, 0x72, 0x20, 0x61, 0x20, 0x63, 0x68, 0x61, 0x72, 0x61, 0x63, 0x74, 0x65, 0x72, 0x3A, 0x20]

/-- The machine's parameters with the values of R5 and R6. -/
def config : Config where
  pcReset := 0x3000
  memReset := 0x0000
  memWords := 65536
  linkReg := 7
  trapArgReg := 0
  regReset := Vector.replicate 8 0
  opBr := 0
  opAdd := 1
  opLd := 2
  opSt := 3
  opJsr := 4
  opAnd := 5
  opLdr := 6
  opStr := 7
  opResA := 8
  opNot := 9
  opLdi := 10
  opSti := 11
  opJmp := 12
  opResB := 13
  opLea := 14
  opTrap := 15
  posOpcode := 12
  posTrapvect8 := 0
  posDR := 9
  posSR1 := 6
  posSR2 := 0
  posImm5 := 0
  posOffset6 := 0
  posPCoffset9 := 0
  posPCoffset11 := 0
  posM := 5
  posL := 11
  posN := 11
  posZ := 10
  posP := 9
  kbsrAddr := 0xFE00
  kbdrAddr := 0xFE02
  kbsrReadyPreservesLow := false
  tvGetc := 0x20
  tvOut := 0x21
  tvPuts := 0x22
  tvIn := 0x23
  tvPutsp := 0x24
  tvHalt := 0x25
  inPrompt := promptBytes
  haltNotice := [0x48, 0x41, 0x4C, 0x54, 0x0A]

/-- The six vectors that select a service routine (R68). -/
def definedVectors : List Byte :=
  [config.tvGetc, config.tvOut, config.tvPuts, config.tvIn, config.tvPutsp, config.tvHalt]

end Sys2Proof
end

