-- ==== Sys2Proof/Syntax.lean ====
section
/-! DEFINITION. The instructions: one constructor for each row of spec/opcode_table.json, its arguments the row's
fields (30_encoding.md R61, R64, R68). -/

namespace Sys2Proof

inductive Instr where
  /-- BR: the mask bits n, z, p and PCoffset9 (R90). -/
  | br (n z p : Bool) (off : BitVec 9)
  /-- ADD, register form OP-RR (R80). -/
  | addReg (dr sr1 sr2 : Reg)
  /-- ADD, immediate form OP-RI (R80). -/
  | addImm (dr sr1 : Reg) (imm : BitVec 5)
  | ld (dr : Reg) (off : BitVec 9)
  | st (sr : Reg) (off : BitVec 9)
  /-- JSR, the offset form of opcode 4 (R92). -/
  | jsr (off : BitVec 11)
  /-- JSRR, the register form of opcode 4 (R93). -/
  | jsrr (base : Reg)
  | andReg (dr sr1 sr2 : Reg)
  | andImm (dr sr1 : Reg) (imm : BitVec 5)
  | ldr (dr base : Reg) (off : BitVec 6)
  | str (sr base : Reg) (off : BitVec 6)
  /-- The first reserved opcode (R140). -/
  | reservedA
  | not (dr sr : Reg)
  | ldi (dr : Reg) (off : BitVec 9)
  | sti (sr : Reg) (off : BitVec 9)
  | jmp (base : Reg)
  /-- The second reserved opcode (R140). -/
  | reservedB
  | lea (dr : Reg) (off : BitVec 9)
  /-- TRAP with any vector (R120). The table's next seven rows refine it, and the decoder answers with those (log 17). -/
  | trap (vect : Byte)
  | getc
  | out
  | puts
  | in_
  | putsp
  | halt
  /-- TRAP with a vector outside the six defined ones (R128). -/
  | trapUndefined (vect : Byte)
  deriving DecidableEq, Repr

end Sys2Proof
end

