-- ==== Sys2Proof/WellFormed.lean ====
section
/-! DEFINITION. Which terms of `Instr` are instructions the decoder can answer. Register numbers, immediates and
offsets are bit fields of exactly their width, so the one check left is the TRAP rows' (30_encoding.md R68). -/

namespace Sys2Proof

/-- A term is well formed when it is the row of its word: an undefined TRAP has none of the six defined vectors (R128),
and the general TRAP row, which the other seven refine, is never the most precise name of a word (log 17). -/
def Instr.wellFormed : Instr → Bool
  | .trap _ => false
  | .trapUndefined v => !definedVectors.contains v
  | .br _ _ _ _ | .addReg _ _ _ | .addImm _ _ _ | .ld _ _ | .st _ _ | .jsr _ | .jsrr _ | .andReg _ _ _
  | .andImm _ _ _ | .ldr _ _ _ | .str _ _ _ | .reservedA | .not _ _ | .ldi _ _ | .sti _ _ | .jmp _ | .reservedB
  | .lea _ _ | .getc | .out | .puts | .in_ | .putsp | .halt => true

/-- The check as a proposition. -/
abbrev Instr.WellFormed (i : Instr) : Prop := i.wellFormed = true

end Sys2Proof
end

