-- ==== Sys2Proof/Decode.lean ====
section
/-! DEFINITION. The decoder and the encoder (30_encoding.md R60 to R68). Every 16-bit word decodes (R64: "the decoder is
a total function"); the two reserved opcodes decode to constructors of their own, whose meaning is the abort (R66). -/

namespace Sys2Proof

/-! ### Fields of a word (R61), each at the position the configuration gives it -/

/-- `instr[15:12]` (R60). -/
def opcodeOf (w : Word) : Opcode := w.extractLsb' config.posOpcode 4

/-- DR and SR, `instr[11:9]`. -/
def fieldDR (w : Word) : Reg := w.extractLsb' config.posDR 3

/-- SR1 and BaseR, `instr[8:6]`. -/
def fieldSR1 (w : Word) : Reg := w.extractLsb' config.posSR1 3

/-- SR2, `instr[2:0]`. -/
def fieldSR2 (w : Word) : Reg := w.extractLsb' config.posSR2 3

def fieldImm5 (w : Word) : BitVec 5 := w.extractLsb' config.posImm5 5
def fieldOffset6 (w : Word) : BitVec 6 := w.extractLsb' config.posOffset6 6
def fieldPCoffset9 (w : Word) : BitVec 9 := w.extractLsb' config.posPCoffset9 9
def fieldPCoffset11 (w : Word) : BitVec 11 := w.extractLsb' config.posPCoffset11 11
def fieldTrapvect8 (w : Word) : Byte := w.extractLsb' config.posTrapvect8 8

/-- `M`, the ADD and AND mode bit: 1 selects the immediate (R63, D3). -/
def fieldM (w : Word) : Bool := w.getLsbD config.posM

/-- `L`, the JSR mode bit: 1 selects the offset form (R63, D3). -/
def fieldL (w : Word) : Bool := w.getLsbD config.posL

/-- The mask bits of BR (R90, D4). -/
def fieldN (w : Word) : Bool := w.getLsbD config.posN
def fieldZ (w : Word) : Bool := w.getLsbD config.posZ
def fieldP (w : Word) : Bool := w.getLsbD config.posP

/-! ### Decoder -/

/-- The row that a TRAP word with vector `v` has among those that refine TRAP (R68, R120). -/
def refineTrap (v : Byte) : Instr :=
  if v = config.tvGetc then .getc
  else if v = config.tvOut then .out
  else if v = config.tvPuts then .puts
  else if v = config.tvIn then .in_
  else if v = config.tvPutsp then .putsp
  else if v = config.tvHalt then .halt
  else .trapUndefined v

/-- The instruction of a word (R64). Bits that no field covers are not looked at (R65, log 16). The last opcode left is
TRAP's: the sixteen values are exhausted. -/
def decode (w : Word) : Instr :=
  let op := opcodeOf w
  if op = config.opBr then .br (fieldN w) (fieldZ w) (fieldP w) (fieldPCoffset9 w)
  else if op = config.opAdd then
    if fieldM w then .addImm (fieldDR w) (fieldSR1 w) (fieldImm5 w)
    else .addReg (fieldDR w) (fieldSR1 w) (fieldSR2 w)
  else if op = config.opLd then .ld (fieldDR w) (fieldPCoffset9 w)
  else if op = config.opSt then .st (fieldDR w) (fieldPCoffset9 w)
  else if op = config.opJsr then
    if fieldL w then .jsr (fieldPCoffset11 w) else .jsrr (fieldSR1 w)
  else if op = config.opAnd then
    if fieldM w then .andImm (fieldDR w) (fieldSR1 w) (fieldImm5 w)
    else .andReg (fieldDR w) (fieldSR1 w) (fieldSR2 w)
  else if op = config.opLdr then .ldr (fieldDR w) (fieldSR1 w) (fieldOffset6 w)
  else if op = config.opStr then .str (fieldDR w) (fieldSR1 w) (fieldOffset6 w)
  else if op = config.opResA then .reservedA
  else if op = config.opNot then .not (fieldDR w) (fieldSR1 w)
  else if op = config.opLdi then .ldi (fieldDR w) (fieldPCoffset9 w)
  else if op = config.opSti then .sti (fieldDR w) (fieldPCoffset9 w)
  else if op = config.opJmp then .jmp (fieldSR1 w)
  else if op = config.opResB then .reservedB
  else if op = config.opLea then .lea (fieldDR w) (fieldPCoffset9 w)
  else refineTrap (fieldTrapvect8 w)

/-- Why a bit string is no instruction. -/
inductive DecodeReject where
  /-- More than the one word that every instruction is (R60). -/
  | longerThanOneWord (nbits : Nat)
  deriving DecidableEq, Repr

/-- Decode an instruction given as a number of `nbits` bits, the bits above them zero. -/
def decodeBits (nbits w : Nat) : Except DecodeReject Instr :=
  if nbits ≤ 16 then .ok (decode (BitVec.ofNat 16 (w % 2 ^ nbits))) else .error (.longerThanOneWord nbits)

/-- The decoder's answer for a row of spec/opcode_table.json: `none` where it rejects. -/
def decodeTableWord (nbits w : Nat) : Option Instr :=
  match decodeBits nbits w with
  | .ok i => some i
  | .error _ => none

/-! ### Encoder -/

/-- A field put at its place: its lowest bit at bit `lo` (R61). -/
def place {n : Nat} (f : BitVec n) (lo : Nat) : Word := f.setWidth 16 <<< lo

/-- A single bit put at its place. -/
def placeBit (b : Bool) (at_ : Nat) : Word := place (BitVec.ofBool b) at_

/-- The opcode, DR or SR, SR1 or BaseR, and PCoffset9 at their places: what several formats share (R62). -/
def placeOp (op : Opcode) : Word := place op config.posOpcode
def placeDR (r : Reg) : Word := place r config.posDR
def placeSR1 (r : Reg) : Word := place r config.posSR1
def placePCoffset9 (off : BitVec 9) : Word := place off config.posPCoffset9

/-- Format OP-RR (R62). -/
def encodeRR (op : Opcode) (dr sr1 sr2 : Reg) : Word :=
  placeOp op ||| placeDR dr ||| placeSR1 sr1 ||| placeBit false config.posM ||| place sr2 config.posSR2

/-- Format OP-RI (R62). -/
def encodeRI (op : Opcode) (dr sr1 : Reg) (imm : BitVec 5) : Word :=
  placeOp op ||| placeDR dr ||| placeSR1 sr1 ||| placeBit true config.posM ||| place imm config.posImm5

/-- Format PC-REL (R62). -/
def encodePcRel (op : Opcode) (r : Reg) (off : BitVec 9) : Word := placeOp op ||| placeDR r ||| placePCoffset9 off

/-- Format BASE-OFF (R62). -/
def encodeBaseOff (op : Opcode) (r base : Reg) (off : BitVec 6) : Word :=
  placeOp op ||| placeDR r ||| placeSR1 base ||| place off config.posOffset6

/-- The word of a TRAP with vector `v`, bits 11:8 written 0000 (R62). -/
def encodeTrap (v : Byte) : Word := placeOp config.opTrap ||| place v config.posTrapvect8

/-- The word of an instruction, each field at the position R61 gives it, ignored bits as an assembler writes them: 0, and
1 in bits 5:0 of NOT (R62, R65, log 16). -/
def encode : Instr → Word
  | .br n z p off =>
    placeOp config.opBr ||| placeBit n config.posN ||| placeBit z config.posZ ||| placeBit p config.posP |||
      placePCoffset9 off
  | .addReg dr sr1 sr2 => encodeRR config.opAdd dr sr1 sr2
  | .addImm dr sr1 imm => encodeRI config.opAdd dr sr1 imm
  | .ld dr off => encodePcRel config.opLd dr off
  | .st sr off => encodePcRel config.opSt sr off
  | .jsr off => placeOp config.opJsr ||| placeBit true config.posL ||| place off config.posPCoffset11
  | .jsrr base => placeOp config.opJsr ||| placeBit false config.posL ||| placeSR1 base
  | .andReg dr sr1 sr2 => encodeRR config.opAnd dr sr1 sr2
  | .andImm dr sr1 imm => encodeRI config.opAnd dr sr1 imm
  | .ldr dr base off => encodeBaseOff config.opLdr dr base off
  | .str sr base off => encodeBaseOff config.opStr sr base off
  | .reservedA => placeOp config.opResA
  | .not dr sr => placeOp config.opNot ||| placeDR dr ||| placeSR1 sr ||| place 0b111111#6 0
  | .ldi dr off => encodePcRel config.opLdi dr off
  | .sti sr off => encodePcRel config.opSti sr off
  | .jmp base => placeOp config.opJmp ||| placeSR1 base
  | .reservedB => placeOp config.opResB
  | .lea dr off => encodePcRel config.opLea dr off
  | .trap v => encodeTrap v
  | .getc => encodeTrap config.tvGetc
  | .out => encodeTrap config.tvOut
  | .puts => encodeTrap config.tvPuts
  | .in_ => encodeTrap config.tvIn
  | .putsp => encodeTrap config.tvPutsp
  | .halt => encodeTrap config.tvHalt
  | .trapUndefined v => encodeTrap v

/-! ### The opcode map as data (R64), written from the printed table and not from the decoder above -/

/-- A row of the opcode map: a word `w` selects it iff `w &&& mask = bits`. -/
structure OpcodeRow where
  mnemonic : String
  bits : Word
  mask : Word
  deriving DecidableEq, Repr

/-- `w & mask = match` (R64). -/
def OpcodeRow.selects (r : OpcodeRow) (w : Word) : Bool := w &&& r.mask == r.bits

/-- The nineteen rows of R64's opcode map. -/
def opcodeMap : List OpcodeRow :=
  [⟨"BR", 0x0000, 0xF000⟩, ⟨"ADD", 0x1000, 0xF020⟩, ⟨"ADD", 0x1020, 0xF020⟩, ⟨"LD", 0x2000, 0xF000⟩,
   ⟨"ST", 0x3000, 0xF000⟩, ⟨"JSR", 0x4800, 0xF800⟩, ⟨"JSRR", 0x4000, 0xF800⟩, ⟨"AND", 0x5000, 0xF020⟩,
   ⟨"AND", 0x5020, 0xF020⟩, ⟨"LDR", 0x6000, 0xF000⟩] ++
  [⟨"STR", 0x7000, 0xF000⟩, ⟨"RESERVED_A", 0x8000, 0xF000⟩, ⟨"NOT", 0x9000, 0xF000⟩, ⟨"LDI", 0xA000, 0xF000⟩,
   ⟨"STI", 0xB000, 0xF000⟩, ⟨"JMP", 0xC000, 0xF000⟩, ⟨"RESERVED_B", 0xD000, 0xF000⟩, ⟨"LEA", 0xE000, 0xF000⟩,
   ⟨"TRAP", 0xF000, 0xF000⟩]

/-- The row of the opcode map an instruction belongs to; the routines stand inside TRAP's (R64, R68). -/
def Instr.mapRow : Instr → OpcodeRow
  | .br _ _ _ _ => ⟨"BR", 0x0000, 0xF000⟩
  | .addReg _ _ _ => ⟨"ADD", 0x1000, 0xF020⟩
  | .addImm _ _ _ => ⟨"ADD", 0x1020, 0xF020⟩
  | .ld _ _ => ⟨"LD", 0x2000, 0xF000⟩
  | .st _ _ => ⟨"ST", 0x3000, 0xF000⟩
  | .jsr _ => ⟨"JSR", 0x4800, 0xF800⟩
  | .jsrr _ => ⟨"JSRR", 0x4000, 0xF800⟩
  | .andReg _ _ _ => ⟨"AND", 0x5000, 0xF020⟩
  | .andImm _ _ _ => ⟨"AND", 0x5020, 0xF020⟩
  | .ldr _ _ _ => ⟨"LDR", 0x6000, 0xF000⟩
  | .str _ _ _ => ⟨"STR", 0x7000, 0xF000⟩
  | .reservedA => ⟨"RESERVED_A", 0x8000, 0xF000⟩
  | .not _ _ => ⟨"NOT", 0x9000, 0xF000⟩
  | .ldi _ _ => ⟨"LDI", 0xA000, 0xF000⟩
  | .sti _ _ => ⟨"STI", 0xB000, 0xF000⟩
  | .jmp _ => ⟨"JMP", 0xC000, 0xF000⟩
  | .reservedB => ⟨"RESERVED_B", 0xD000, 0xF000⟩
  | .lea _ _ => ⟨"LEA", 0xE000, 0xF000⟩
  | .trap _ | .getc | .out | .puts | .in_ | .putsp | .halt | .trapUndefined _ => ⟨"TRAP", 0xF000, 0xF000⟩

/-- The bits of an instruction's word that the decoder tests or a field covers: all but the ignored bits of R65. -/
def Instr.readBits : Instr → Word
  | .addReg _ _ _ | .andReg _ _ _ => 0xFFE7
  | .not _ _ => 0xFFC0
  | .jmp _ => 0xF1C0
  | .jsrr _ => 0xF9C0
  | .trap _ | .getc | .out | .puts | .in_ | .putsp | .halt | .trapUndefined _ => 0xF0FF
  | .reservedA | .reservedB => 0xF000
  | .br _ _ _ _ | .addImm _ _ _ | .ld _ _ | .st _ _ | .jsr _ | .andImm _ _ _ | .ldr _ _ _ | .str _ _ _ | .ldi _ _
  | .sti _ _ | .lea _ _ => 0xFFFF

end Sys2Proof
end

