-- ==== Sys2Proof/Machine/Bits.lean ====
section
/-! DEFINITION. Widening and splitting of words (00_scope.md R8, R9; 43_trap.md R121, R126). -/

namespace Sys2Proof.Machine

/-- `sext_16(f, n)`: widen an `n`-bit field by replicating its sign bit (R8). -/
def sext16 {n : Nat} (f : BitVec n) : Word := f.signExtend 16

/-- `zext_16(b)` (R9). -/
def zext16 (b : Byte) : Word := b.setWidth 16

/-- `w[7:0]`. -/
def lowByte (w : Word) : Byte := w.extractLsb' 0 8

/-- `w[15:8]`. -/
def highByte (w : Word) : Byte := w.extractLsb' 8 8

/-- The word whose first wire byte is `hi` and second `lo`: big-endian (20_memory.md R46 a, 70_reset_and_hazards.md
R183). -/
def wireWord (hi lo : Byte) : Word := hi ++ lo

end Sys2Proof.Machine
end

