-- ==== Sys2Proof/Machine/State.lean ====
section
/-! DEFINITION. The state of the machine: what 10_state.md gives it (R20 to R33), the condition of a routine that has
not ended (60_exceptions.md R168), and the environment the step reads (R28). Faults and refusals. Reset (R32). -/

namespace Sys2Proof.Machine

/-- CondFlag (R23): exactly one of three values. -/
inductive CondFlag where
  | negative
  | zero
  | positive
  deriving DecidableEq, Repr

/-- The run state (R25). -/
inductive RunState where
  | running
  | halted
  | aborted
  deriving DecidableEq, Repr

/-- One element of memory that is listed: its address and its word. The word is the smallest addressable unit (R12,
R48), so a cell holds a word (log 1). -/
abbrev Cell := Nat × Word

/-- Memory (R26): the words that differ from `MEM_RESET`, by rising address (log 1). -/
abbrev Memory := List Cell

/-- The service routine a TRAP has started and not ended (R168; log 10, log 11). -/
inductive Routine where
  /-- GETC, waiting inside `InputReadBlocking()` (R122). -/
  | getc
  /-- IN, its prompt printed, waiting inside `InputReadBlocking()` (R125). -/
  | in_
  /-- PUTS, about to read the word at `a` (R124). -/
  | puts (a : Word)
  /-- PUTSP, about to read the word at `a` (R126). -/
  | putsp (a : Word)
  deriving DecidableEq, Repr

/-- What the host may do before a step (R28, R155; log 9, log 19). -/
inductive HostMove where
  /-- Append characters to the input queue, in the order typed; none is a turn in which the host does nothing. -/
  | append (bytes : List Byte)
  /-- End the process (R155). -/
  | kill
  deriving DecidableEq, Repr

/-- What the host does during a run, one move before each step: first the moves `once`, then the moves `forever`, over
and over (R28: the host may append at any time, without end; log 9). With no moves left and none to repeat it does
nothing. -/
structure HostPlan where
  once : List HostMove
  forever : List HostMove
  deriving DecidableEq, Repr

structure State where
  /-- R0 to R7 (R20). -/
  regs : Vector Word 8
  /-- The program counter (R22). -/
  pc : Word
  /-- The condition flag (R23). -/
  cc : CondFlag
  /-- The run state (R25). -/
  run : RunState
  /-- The memory array, the two mapped words among it (R26, R27). -/
  mem : Memory
  /-- `Out`, oldest byte first (R29). -/
  out : List Byte
  /-- The routine that the current TRAP is still inside, if any (R168; log 10, log 11). The model's own field. -/
  pending : Option Routine
  /-- `InQ`, head first (R28). Outside the block. -/
  inQ : List Byte
  /-- The host's moves before the coming steps (log 9). Outside the block; the model's own field. -/
  host : HostPlan
  deriving DecidableEq, Repr

/-- Why the machine stops. -/
inductive Fault where
  /-- The host ended the process at a cycle boundary or during a blocked read (R155, D18). Raised by `step` on the
  host's move `kill`, by no instruction. Safe: the run has no later state (log 19). -/
  | hostKill
  deriving DecidableEq, Repr

/-- Why an instruction has no meaning. -/
inductive Refusal where
  /-- An instruction that exec rejects by name. No arm does. Safe: the model stops. -/
  | notModelled (mnemonic : String)
  deriving DecidableEq, Repr

/-- A host that never does anything. -/
def HostPlan.idle : HostPlan := ⟨[], []⟩

/-- The state after reset (R32) for any register values, any characters the host has buffered and any moves it will
make (R181: "`x[0..7]` arbitrary", "`InQ` arbitrary and growing under host control"). -/
def State.resetWith (regs : Vector Word 8) (inQ : List Byte) (host : HostPlan) : State where
  regs := regs
  pc := config.pcReset
  cc := .zero
  run := .running
  mem := []
  out := []
  pending := none
  inQ := inQ
  host := host

/-- The state right after reset, with `REG_RESET` as the log names it (log 5) and a host that does nothing (log 9). -/
def State.reset : State := State.resetWith config.regReset [] HostPlan.idle

end Sys2Proof.Machine
end

