-- ==== Sys2Proof/Machine/Ops.lean ====
section
/-! DEFINITION. The named operations over memory, registers, the bus and the devices (00_scope.md R11): every meaning
is written from these. -/

namespace Sys2Proof.Machine

/-! ### The memory array (R26) -/

/-- The word at an address; an unlisted address holds `MEM_RESET` (R32). -/
def Memory.read : Memory → Nat → Word
  | [], _ => config.memReset
  | (b, w) :: rest, a => if a = b then w else Memory.read rest a

/-- The memory without any entry at an address. -/
def Memory.erase (m : Memory) (a : Nat) : Memory := m.filter (fun c => c.1 != a)

/-- List a word at an address that is not listed, before the first higher address. -/
def Memory.insert : Memory → Nat → Word → Memory
  | [], a, v => [(a, v)]
  | (b, w) :: rest, a, v => if a < b then (a, v) :: (b, w) :: rest else (b, w) :: Memory.insert rest a v

/-- Put a word at an address, keeping the canonical form: what an unlisted address holds anyway is not listed. -/
def Memory.write (m : Memory) (a : Nat) (v : Word) : Memory :=
  if v = config.memReset then m.erase a else (m.erase a).insert a v

/-- The canonical form: addresses strictly rising, inside the address space, none listed that holds `MEM_RESET`. -/
abbrev Memory.wf (m : Memory) : Prop :=
  m.Pairwise (fun c d => c.1 < d.1) ∧ ∀ c ∈ m, c.1 < config.memWords ∧ c.2 ≠ config.memReset

/-! ### Registers (R20) -/

/-- `x[r]`. -/
def State.x (s : State) (r : Reg) : Word := s.regs.get r.toFin

/-- `x[r] <- v`: all 16 bits; every register is writable (R20). -/
def State.setX (s : State) (r : Reg) (v : Word) : State := { s with regs := s.regs.set r.toNat v r.isLt }

/-- `pc <- v` (R22). -/
def State.setPc (s : State) (v : Word) : State := { s with pc := v }

/-- `cc <- f` (R23). -/
def State.setCc (s : State) (f : CondFlag) : State := { s with cc := f }

/-- `run <- r` (R25). -/
def State.setRun (s : State) (r : RunState) : State := { s with run := r }

/-- Say which routine the current TRAP is still inside (R168). -/
def State.setPending (s : State) (r : Option Routine) : State := { s with pending := r }

/-! ### The raw memory array -/

/-- `mem[a]`, with no side effect (R11, R26). -/
def State.peek (s : State) (a : Word) : Word := s.mem.read a.toNat

/-- `mem[a] <- v`, with no side effect. -/
def State.poke (s : State) (a v : Word) : State := { s with mem := s.mem.write a.toNat v }

/-! ### The devices (60_exceptions.md R161, R162) -/

/-- `InputPoll()`: is a character buffered? -/
def inputPoll (s : State) : Bool := !s.inQ.isEmpty

/-- `InputReadBlocking()`: the head byte and the state without it; `none` while there is none, and the caller waits. -/
def inputTake (s : State) : Option (Byte × State) :=
  match s.inQ with
  | [] => none
  | b :: rest => some (b, { s with inQ := rest })

/-- `Output(b)` for each byte in order (R162). -/
def State.emit (s : State) (bytes : List Byte) : State := { s with out := s.out ++ bytes }

/-! ### The bus (20_memory.md) -/

/-- The status word after a poll that found a character (R42 c, D9), for either setting of
`KBSR_READY_PRESERVES_LOW` (log 6). -/
def readyStatus (preservesLow : Bool) (old : Word) : Word := if preservesLow then old ||| 0x8000 else 0x8000

/-- The poll that a read of the status address performs first (R42; log 6, log 7). -/
def pollStatus (s : State) : State :=
  match inputTake s with
  | some (b, t) =>
    (t.poke config.kbsrAddr (readyStatus config.kbsrReadyPreservesLow (t.peek config.kbsrAddr))).poke
      config.kbdrAddr (zext16 b)
  | none => s.poke config.kbsrAddr 0x0000

/-- `MemRead(a)`: the word and the state after the read (R41, R42). Addresses are words, so they are already modulo
65536 (R40). -/
def memRead (a : Word) (s : State) : Word × State :=
  if a = config.kbsrAddr then ((pollStatus s).peek a, pollStatus s) else (s.peek a, s)

/-- `MemWrite(a, v)`: plain at every address (R43, R44). -/
def memWrite (a v : Word) (s : State) : State := s.poke a v

/-! ### The cycle (10_state.md R30) -/

/-- Fetch through the bus, then advance the pc (R30, R56): the instruction word and the state the instruction starts
in. -/
def fetch (s : State) : Word × State :=
  let r := memRead s.pc s
  (r.1, r.2.setPc (r.2.pc + 1))

/-- Entering a call or a trap: `x[7] <- pc`, with no flag update (R92, R93, R120, R157, C1). It is all that TRAP saves;
there is no return from it to model, because control never leaves the instruction (R158). -/
def saveLink (s : State) : State := s.setX config.linkReg s.pc

/-- `raise IllegalOpcode(instr)`, the one exception: `run <- aborted` and nothing else (R150, R151). It enters no handler,
saves nothing, and there is no return from it. -/
def raiseIllegalOpcode (s : State) : State := s.setRun .aborted

/-- The host's plan without the kills that come next in it. -/
def withoutKillNext (p : HostPlan) : HostPlan :=
  match p.once.dropWhile (fun m => m == .kill) with
  | [] => ⟨[], p.forever.dropWhile (fun m => m == .kill)⟩
  | moves => ⟨moves, p.forever⟩

/-- Put an instruction word where the next fetch reads it. A fetch at the status address is a poll and reads no stored
word (R42), so there the pc moves to `PC_RESET` (log 21). A terminal machine, an unfinished routine and a coming kill
would each keep the next step from fetching, and are cleared. -/
def placeInstruction (w : Word) (s : State) : State :=
  let pc := if s.pc = config.kbsrAddr then config.pcReset else s.pc
  ({ s with pc := pc, run := .running, pending := none, host := withoutKillNext s.host }).poke pc w

end Sys2Proof.Machine
end

