-- ==== Sys2Proof/Machine/Flags.lean ====
section
/-! DEFINITION. The condition flag: its classification, its update, its test by BR (10_state.md R23, R24;
41_control.md R90). -/

namespace Sys2Proof.Machine

/-- The classification of a 16-bit value: all bits zero, high bit set, or otherwise (R24). -/
def classify (v : Word) : CondFlag :=
  if v = 0 then .zero else if v.msb then .negative else .positive

/-- `update_flags(i)`: classify the register's current value (R24). -/
def updateFlags (r : Reg) (s : State) : State := s.setCc (classify (s.x r))

/-- A flag-affecting write of a register: the write, then `update_flags` on it. -/
def writeResult (r : Reg) (v : Word) (s : State) : State := updateFlags r (s.setX r v)

/-- The one-hot encoding of CondFlag for the BR test (R23, D4). -/
def CondFlag.enc : CondFlag → BitVec 3
  | .negative => 0b100
  | .zero => 0b010
  | .positive => 0b001

/-- BR's test: does the mask share a set bit with CondFlag (R90)? -/
def branchTaken (n z p : Bool) (cc : CondFlag) : Bool :=
  ((BitVec.ofBool n ++ BitVec.ofBool z ++ BitVec.ofBool p : BitVec 3) &&& cc.enc) != 0

end Sys2Proof.Machine
end

