-- ==== Sys2Proof/Machine/Operands.lean ====
section
/-! DEFINITION. The operand forms: the second operand of ADD and AND (30_encoding.md R63) and the addressing modes
(42_load_store.md R107). In each, `s.pc` is the incremented pc. -/

namespace Sys2Proof.Machine

/-- The second operand of ADD and AND (R63). -/
inductive Operand2 where
  /-- Mode bit 0: a register. -/
  | reg (r : Reg)
  /-- Mode bit 1: a 5-bit immediate. -/
  | imm (i : BitVec 5)
  deriving DecidableEq, Repr

/-- The operand's value; an immediate is sign-extended (R63, R80). -/
def Operand2.value (o : Operand2) (s : State) : Word :=
  match o with
  | .reg r => s.x r
  | .imm i => sext16 i

/-- `(pc + sext_16(offset, n)) mod 65536`, for a 9-bit or 11-bit offset (R90, R92, R107). -/
def pcRel {n : Nat} (off : BitVec n) (s : State) : Word := s.pc + sext16 off

/-- `(x[BaseR] + sext_16(offset6, 6)) mod 65536` (R107). -/
def baseOff (base : Reg) (off : BitVec 6) (s : State) : Word := s.x base + sext16 off

/-- The indirect mode: the pointer is itself a bus read (R107); the address and the state after that read. -/
def indirect (off : BitVec 9) (s : State) : Word × State := memRead (pcRel off s) s

end Sys2Proof.Machine
end

