-- ==== Sys2Proof/Machine/Control.lean ====
section
/-! DEFINITION. BR, JMP, JSR, JSRR (41_control.md). `s.pc` is the incremented pc. -/

namespace Sys2Proof.Machine

/-- BR (R90). -/
def execBr (n z p : Bool) (off : BitVec 9) (s : State) : Host.Outcome State Fault Refusal :=
  .next (if branchTaken n z p s.cc then s.setPc (pcRel off s) else s)

/-- JMP, and so RET (R91). -/
def execJmp (base : Reg) (s : State) : Host.Outcome State Fault Refusal := .next (s.setPc (s.x base))

/-- JSR: save the incremented pc, then jump relative to it (R92). -/
def execJsr (off : BitVec 11) (s : State) : Host.Outcome State Fault Refusal :=
  .next ((saveLink s).setPc (pcRel off (saveLink s)))

/-- JSRR: save the incremented pc, and only then read the base register, so JSRR R7 falls through (R93). -/
def execJsrr (base : Reg) (s : State) : Host.Outcome State Fault Refusal :=
  .next ((saveLink s).setPc ((saveLink s).x base))

end Sys2Proof.Machine
end

