-- ==== Sys2Proof/Machine/LoadStore.lean ====
section
/-! DEFINITION. LD, LDI, LDR, LEA, ST, STI, STR (42_load_store.md). All accesses go through the bus (R56). -/

namespace Sys2Proof.Machine

/-- `x[DR] <- MemRead(ea); update_flags(DR)` (R100, R101, R102). -/
def loadFrom (dr : Reg) (ea : Word) (s : State) : State :=
  let r := memRead ea s
  writeResult dr r.1 r.2

/-- LD (R100). -/
def execLd (dr : Reg) (off : BitVec 9) (s : State) : Host.Outcome State Fault Refusal :=
  .next (loadFrom dr (pcRel off s) s)

/-- LDI: the pointer read, then the data read (R101). -/
def execLdi (dr : Reg) (off : BitVec 9) (s : State) : Host.Outcome State Fault Refusal :=
  let p := indirect off s
  .next (loadFrom dr p.1 p.2)

/-- LDR (R102). -/
def execLdr (dr base : Reg) (off : BitVec 6) (s : State) : Host.Outcome State Fault Refusal :=
  .next (loadFrom dr (baseOff base off s) s)

/-- LEA: the address itself, with no access, and the flags set from it (R103). -/
def execLea (dr : Reg) (off : BitVec 9) (s : State) : Host.Outcome State Fault Refusal :=
  .next (writeResult dr (pcRel off s) s)

/-- ST (R104). -/
def execSt (sr : Reg) (off : BitVec 9) (s : State) : Host.Outcome State Fault Refusal :=
  .next (memWrite (pcRel off s) (s.x sr) s)

/-- STI: the pointer read, then the write (R105). -/
def execSti (sr : Reg) (off : BitVec 9) (s : State) : Host.Outcome State Fault Refusal :=
  let p := indirect off s
  .next (memWrite p.1 (p.2.x sr) p.2)

/-- STR (R106). -/
def execStr (sr base : Reg) (off : BitVec 6) (s : State) : Host.Outcome State Fault Refusal :=
  .next (memWrite (baseOff base off s) (s.x sr) s)

end Sys2Proof.Machine
end

