-- ==== Sys2Proof/Machine/Operate.lean ====
section
/-! DEFINITION. ADD, AND, NOT (40_operate.md). -/

namespace Sys2Proof.Machine

/-- ADD with either second operand (R80). -/
def addOp (dr sr1 : Reg) (o : Operand2) (s : State) : State := writeResult dr (s.x sr1 + o.value s) s

/-- AND with either second operand (R81). -/
def andOp (dr sr1 : Reg) (o : Operand2) (s : State) : State := writeResult dr (s.x sr1 &&& o.value s) s

/-- ADD, register form (R80). -/
def execAddReg (dr sr1 sr2 : Reg) (s : State) : Host.Outcome State Fault Refusal := .next (addOp dr sr1 (.reg sr2) s)

/-- ADD, immediate form (R80). -/
def execAddImm (dr sr1 : Reg) (imm : BitVec 5) (s : State) : Host.Outcome State Fault Refusal :=
  .next (addOp dr sr1 (.imm imm) s)

/-- AND, register form (R81). -/
def execAndReg (dr sr1 sr2 : Reg) (s : State) : Host.Outcome State Fault Refusal := .next (andOp dr sr1 (.reg sr2) s)

/-- AND, immediate form (R81). -/
def execAndImm (dr sr1 : Reg) (imm : BitVec 5) (s : State) : Host.Outcome State Fault Refusal :=
  .next (andOp dr sr1 (.imm imm) s)

/-- NOT (R82). -/
def execNot (dr sr : Reg) (s : State) : Host.Outcome State Fault Refusal := .next (writeResult dr (~~~ s.x sr) s)

end Sys2Proof.Machine
end

