-- ==== Sys2Proof/Machine/Reserved.lean ====
section
/-! DEFINITION. The two reserved opcodes (44_reserved_opcodes.md R140). -/

namespace Sys2Proof.Machine

/-- The first reserved opcode: the illegal-opcode exception (R140). -/
def execReservedA (s : State) : Host.Outcome State Fault Refusal := .next (raiseIllegalOpcode s)

/-- The second reserved opcode: "behaves exactly like the other" (R140). -/
def execReservedB (s : State) : Host.Outcome State Fault Refusal := .next (raiseIllegalOpcode s)

end Sys2Proof.Machine
end

