-- ==== Sys2Proof/Machine/Trap.lean ====
section
/-! DEFINITION. TRAP and the six built-in service routines (43_trap.md). A routine runs as the rest of its TRAP's cycle
(60_exceptions.md R157); the ones that may not end in it leave `pending` set, and the next step goes on with them
(R168, R195; log 10, log 11). -/

namespace Sys2Proof.Machine

/-! ### Characters in -/

/-- `x[0] <- zext_16(b); update_flags(0)`, the last lines of GETC and IN (R122, R125). -/
def deliverChar (b : Byte) (s : State) : State := writeResult config.trapArgReg (zext16 b) s

/-- GETC from its blocking read on (R122): with a character it completes, without one it waits (R168). -/
def getcRead (s : State) : State :=
  match inputTake s with
  | some (b, t) => deliverChar b (t.setPending none)
  | none => s.setPending (some .getc)

/-- IN from its blocking read on: the echo, then the register and the flags (R125, D22). -/
def inRead (s : State) : State :=
  match inputTake s with
  | some (b, t) => deliverChar b ((t.setPending none).emit [b])
  | none => s.setPending (some .in_)

/-! ### Strings out -/

/-- What PUTS emits for a word: its low byte (R124, D12). -/
def putsChars (w : Word) : List Byte := [lowByte w]

/-- What PUTSP emits for a word: the low byte always, then the high byte if it is not zero (R126). -/
def putspChars (w : Word) : List Byte := if highByte w = 0 then [lowByte w] else [lowByte w, highByte w]

/-- The loop of PUTS and PUTSP for at most `n` bus reads from address `a` (R124, R126): `none` when a read returned the
zero word, else the address that the next read would be at. -/
def stringLoop (chars : Word → List Byte) : Nat → Word → State → Option Word × State
  | 0, a, s => (some a, s)
  | n + 1, a, s =>
    let r := memRead a s
    if r.1 = 0 then (none, r.2) else stringLoop chars n (a + 1) (r.2.emit (chars r.1))

/-- PUTS from address `a` on: one lap of the address space at most in one step (log 11). -/
def putsFrom (a : Word) (s : State) : State :=
  match stringLoop putsChars config.memWords a s with
  | (none, t) => t.setPending none
  | (some a', t) => t.setPending (some (.puts a'))

/-- PUTSP from address `a` on: one lap of the address space at most in one step (log 11). -/
def putspFrom (a : Word) (s : State) : State :=
  match stringLoop putspChars config.memWords a s with
  | (none, t) => t.setPending none
  | (some a', t) => t.setPending (some (.putsp a'))

/-! ### The routines, after `x[7] <- pc` -/

/-- GETC (R122). -/
def runGetc (s : State) : State := getcRead s

/-- OUT (R123). -/
def runOut (s : State) : State := s.emit [lowByte (s.x config.trapArgReg)]

/-- PUTS (R124). -/
def runPuts (s : State) : State := putsFrom (s.x config.trapArgReg) s

/-- IN: the prompt before the wait (R125, D22). -/
def runIn (s : State) : State := inRead (s.emit config.inPrompt)

/-- PUTSP (R126). -/
def runPutsp (s : State) : State := putspFrom (s.x config.trapArgReg) s

/-- HALT: the notice, then the terminal state (R127). -/
def runHalt (s : State) : State := (s.emit config.haltNotice).setRun .halted

/-- TRAP's dispatch on its vector (R120); a vector outside the six selects nothing (R128). -/
def trapDispatch (v : Byte) (s : State) : State :=
  if v = config.tvGetc then runGetc s
  else if v = config.tvOut then runOut s
  else if v = config.tvPuts then runPuts s
  else if v = config.tvIn then runIn s
  else if v = config.tvPutsp then runPutsp s
  else if v = config.tvHalt then runHalt s
  else s

/-- Go on with a routine that has not ended: one more try of its blocking read, or the next lap of its string. -/
def resume (r : Routine) (s : State) : State :=
  match r with
  | .getc => getcRead s
  | .in_ => inRead s
  | .puts a => putsFrom a s
  | .putsp a => putspFrom a s

/-! ### The meanings -/

/-- TRAP with any vector (R120). -/
def execTrap (v : Byte) (s : State) : Host.Outcome State Fault Refusal := .next (trapDispatch v (saveLink s))

def execGetc (s : State) : Host.Outcome State Fault Refusal := .next (runGetc (saveLink s))

def execOut (s : State) : Host.Outcome State Fault Refusal := .next (runOut (saveLink s))

def execPuts (s : State) : Host.Outcome State Fault Refusal := .next (runPuts (saveLink s))

def execIn (s : State) : Host.Outcome State Fault Refusal := .next (runIn (saveLink s))

def execPutsp (s : State) : Host.Outcome State Fault Refusal := .next (runPutsp (saveLink s))

def execHalt (s : State) : Host.Outcome State Fault Refusal := .next (runHalt (saveLink s))

/-- TRAP with an undefined vector: the R7 write and nothing else, "not an error" (R128). -/
def execTrapUndefined (_v : Byte) (s : State) : Host.Outcome State Fault Refusal := .next (saveLink s)

end Sys2Proof.Machine
end

