-- ==== Sys2Proof/Machine/Environment.lean ====
section
/-! DEFINITION. The host: its move before a step (10_state.md R28, 60_exceptions.md R155) and its image loads before the
run (70_reset_and_hazards.md R180 to R186). -/

namespace Sys2Proof.Machine

/-- May the host end the run here? Only at a cycle boundary or while the core is blocked in GETC or IN (R155): never
inside a string routine. -/
def killable (s : State) : Bool :=
  match s.pending with
  | none | some .getc | some .in_ => true
  | some (.puts _) | some (.putsp _) => false

/-- The host's next move and its plan after it; `none` when it does nothing any more (log 9). -/
def nextMove (p : HostPlan) : Option (HostMove × HostPlan) :=
  match p.once, p.forever with
  | m :: rest, again => some (m, ⟨rest, again⟩)
  | [], m :: rest => some (m, ⟨rest, m :: rest⟩)
  | [], [] => none

/-- The host's move before a step; `none` when it ends the process. A kill that may not happen here stays next
(log 19). -/
def hostTurn (s : State) : Option State :=
  match nextMove s.host with
  | none => some s
  | some (.append bytes, plan) => some { s with inQ := s.inQ ++ bytes, host := plan }
  | some (.kill, _) => if killable s then none else some s

/-! ### Image loading -/

/-- The 16-bit values of a byte stream, big-endian; a dangling byte is no value (R183, D20; log 20). -/
def wireWords : List Byte → List Word
  | hi :: lo :: rest => wireWord hi lo :: wireWords rest
  | [_] => []
  | [] => []

/-- Write words contiguously from an address, stopping at the top of the address space (R182, R184). -/
def loadWords : Nat → List Word → Memory → Memory
  | _, [], m => m
  | a, w :: rest, m => if a < config.memWords then loadWords (a + 1) rest (m.write a w) else m

/-- `LoadImage`: the first value is the origin, the rest go from there; nothing but `mem` changes (R182). -/
def loadImage (bytes : List Byte) (s : State) : State :=
  match wireWords bytes with
  | [] => s
  | origin :: ws => { s with mem := loadWords origin.toNat ws s.mem }

/-- Load images in the order given (R185); `none` stands for a stream that fails to open, after which the Dispatcher
must not start (R186). -/
def loadImages : List (Option (List Byte)) → State → Option State
  | [], s => some s
  | none :: _, _ => none
  | some bytes :: rest, s => loadImages rest (loadImage bytes s)

/-- A run's first state: reset, then the images (R180, R181). -/
def launch (regs : Vector Word 8) (inQ : List Byte) (host : HostPlan) (images : List (Option (List Byte))) :
    Option State :=
  loadImages images (State.resetWith regs inQ host)

end Sys2Proof.Machine
end

