-- ==== Sys2Proof/Machine/Step.lean ====
section
/-! DEFINITION. One step of the machine (10_state.md R30), and the placing of an instruction where it is fetched. -/

namespace Sys2Proof.Machine

/-- One step. A terminal machine stays as it is (R169). A running one first lets the host move (R28), which may end the
run (R155); then it goes on with the routine it is inside, or else runs a cycle: fetch, advance the pc, decode, execute
(R30). -/
def step (s : State) : Host.Outcome State Fault Refusal :=
  match s.run with
  | .halted | .aborted => .next s
  | .running =>
    match hostTurn s with
    | none => .fault .hostKill
    | some t =>
      match t.pending with
      | some r => .next (resume r t)
      | none => exec (decode (fetch t).1) (fetch t).2

/-- `s` with the instruction whose bits are `w` where the next step fetches (log 21). -/
def State.withFetchWord (s : State) (nbits w : Nat) : State :=
  placeInstruction (BitVec.ofNat 16 (w % 2 ^ nbits)) s

end Sys2Proof.Machine
end

