-- ==== Sys2Proof/Safety.lean ====
section
/-! DEFINITION. The vocabulary of claims: how a run goes and ends (60_exceptions.md R169, 70_reset_and_hazards.md R197),
what two states share (frames), what each instruction may write, the invariant of every state a run can be in. -/

namespace Sys2Proof.Machine

/-! ### Runs -/

/-- `t` is a state of the run from `s`. -/
inductive Reaches : State → State → Prop where
  | refl (s : State) : Reaches s s
  | head {s t u : State} : step s = .next t → Reaches t u → Reaches s u

/-- A final state: no cycle runs any more (R169). -/
def State.Terminal (s : State) : Prop := s.run = .halted ∨ s.run = .aborted

/-- "the program terminates normally" (R169): the run reaches `halted`. -/
def EndsNormally (s : State) : Prop := ∃ t, Reaches s t ∧ t.run = .halted

/-- A safe run never reaches the error end (R197). -/
def SafeRun (s : State) : Prop := ∀ t, Reaches s t → t.run ≠ .aborted

/-- The core waits inside GETC or IN (R12 "blocked", R168). -/
def State.Blocked (s : State) : Prop := s.run = .running ∧ (s.pending = some .getc ∨ s.pending = some .in_)

/-- `n` steps of the machine, as the host counts them. -/
def stepsFrom (n : Nat) (s : State) : Host.Outcome State Fault Refusal := Sys2Proof.core.run n s

/-- What the host appends to the input queue at the start of a step from `s`: its next move's bytes, while running. -/
def arrivals (s : State) : List Byte :=
  match s.run, nextMove s.host with
  | .running, some (.append bytes, _) => bytes
  | _, _ => []

/-- The state with other output before its own. -/
def State.prefixOut (bytes : List Byte) (s : State) : State := { s with out := bytes ++ s.out }

/-! ### Frames: what two states share -/

/-- Every register but those listed. -/
def SameRegsExcept (ds : List Reg) (s t : State) : Prop := ∀ r, r ∉ ds → t.x r = s.x r

/-- Every word of memory but those at the addresses listed. -/
def SameMemoryExcept (as : List Word) (s t : State) : Prop := ∀ a, a ∉ as → t.peek a = s.peek a

/-- The input queue and the output stream. -/
def SameStreams (s t : State) : Prop := t.inQ = s.inQ ∧ t.out = s.out

/-- The run state, the unfinished routine and the host's coming moves. -/
def SameRun (s t : State) : Prop := t.run = s.run ∧ t.pending = s.pending ∧ t.host = s.host

/-! ### What an instruction may do -/

/-- The registers an instruction writes (R20's table): DR; R7 for calls and traps; R0 too for GETC and IN. -/
def writtenRegs : Instr → List Reg
  | .addReg dr _ _ | .addImm dr _ _ | .andReg dr _ _ | .andImm dr _ _ | .not dr _ | .ld dr _ | .ldi dr _ | .ldr dr _ _
  | .lea dr _ => [dr]
  | .jsr _ | .jsrr _ | .out | .puts | .putsp | .halt | .trapUndefined _ => [config.linkReg]
  | .getc | .in_ => [config.linkReg, config.trapArgReg]
  | .trap v =>
    if v = config.tvGetc ∨ v = config.tvIn then [config.linkReg, config.trapArgReg] else [config.linkReg]
  | .br _ _ _ _ | .jmp _ | .st _ _ | .sti _ _ | .str _ _ _ | .reservedA | .reservedB => []

/-- The register on which an instruction calls `update_flags` (R24's list). -/
def flagSource : Instr → Option Reg
  | .addReg dr _ _ | .addImm dr _ _ | .andReg dr _ _ | .andImm dr _ _ | .not dr _ | .ld dr _ | .ldi dr _ | .ldr dr _ _
  | .lea dr _ => some dr
  | .getc | .in_ => some config.trapArgReg
  | .trap v => if v = config.tvGetc ∨ v = config.tvIn then some config.trapArgReg else none
  | .br _ _ _ _ | .jmp _ | .jsr _ | .jsrr _ | .st _ _ | .sti _ _ | .str _ _ _ | .reservedA | .reservedB | .out | .puts
  | .putsp | .halt | .trapUndefined _ => none

/-- Is it a TRAP whose routine takes a character by a blocking read (R121 d)? -/
def blocksForInput : Instr → Bool
  | .getc | .in_ => true
  | .trap v => v == config.tvGetc || v == config.tvIn
  | .br _ _ _ _ | .addReg _ _ _ | .addImm _ _ _ | .ld _ _ | .st _ _ | .jsr _ | .jsrr _ | .andReg _ _ _ | .andImm _ _ _
  | .ldr _ _ _ | .str _ _ _ | .reservedA | .not _ _ | .ldi _ _ | .sti _ _ | .jmp _ | .reservedB | .lea _ _ | .out
  | .puts | .putsp | .halt | .trapUndefined _ => false

/-- Is it a TRAP, with any vector? -/
def isTrap : Instr → Bool
  | .trap _ | .getc | .out | .puts | .in_ | .putsp | .halt | .trapUndefined _ => true
  | .br _ _ _ _ | .addReg _ _ _ | .addImm _ _ _ | .ld _ _ | .st _ _ | .jsr _ | .jsrr _ | .andReg _ _ _ | .andImm _ _ _
  | .ldr _ _ _ | .str _ _ _ | .reservedA | .not _ _ | .ldi _ _ | .sti _ _ | .jmp _ | .reservedB | .lea _ _ => false

/-- Does it set the pc when executed in `s`: JMP, JSR, JSRR, or a BR that is taken (R22)? -/
def movesPc (i : Instr) (s : State) : Bool :=
  match i with
  | .jmp _ | .jsr _ | .jsrr _ => true
  | .br n z p _ => branchTaken n z p s.cc
  | .addReg _ _ _ | .addImm _ _ _ | .ld _ _ | .st _ _ | .andReg _ _ _ | .andImm _ _ _ | .ldr _ _ _ | .str _ _ _
  | .reservedA | .not _ _ | .ldi _ _ | .sti _ _ | .reservedB | .lea _ _ | .trap _ | .getc | .out | .puts | .in_ | .putsp
  | .halt | .trapUndefined _ => false

/-- The address a store writes when executed in `s`, by the operand forms the meanings use (R107). -/
def storeAddr (i : Instr) (s : State) : Option Word :=
  match i with
  | .st _ off => some (pcRel off s)
  | .sti _ off => some (indirect off s).1
  | .str _ base off => some (baseOff base off s)
  | .br _ _ _ _ | .addReg _ _ _ | .addImm _ _ _ | .ld _ _ | .jsr _ | .jsrr _ | .andReg _ _ _ | .andImm _ _ _
  | .ldr _ _ _ | .reservedA | .not _ _ | .ldi _ _ | .jmp _ | .reservedB | .lea _ _ | .trap _ | .getc | .out | .puts
  | .in_ | .putsp | .halt | .trapUndefined _ => none

/-! ### The loop of PUTS and PUTSP as a relation (R124, R126), with no bound -/

/-- `StringRun chars n a s t`: started at address `a` in state `s`, the loop ends at its `n`-th bus read, the first that
returns the zero word, in state `t`. -/
inductive StringRun (chars : Word → List Byte) : Nat → Word → State → State → Prop where
  | stop {a : Word} {s : State} : (memRead a s).1 = 0 → StringRun chars 1 a s (memRead a s).2
  | more {n : Nat} {a : Word} {s t : State} : (memRead a s).1 ≠ 0 →
      StringRun chars n (a + 1) ((memRead a s).2.emit (chars (memRead a s).1)) t → StringRun chars (n + 1) a s t

/-- `StringReads chars n a s t`: started at address `a` in state `s`, the loop has made `n` bus reads, none of which
returned the zero word, and has emitted their characters; it is in state `t`, about to read at `a + n`. -/
inductive StringReads (chars : Word → List Byte) : Nat → Word → State → State → Prop where
  | refl (a : Word) (s : State) : StringReads chars 0 a s s
  | more {n : Nat} {a : Word} {s t : State} : (memRead a s).1 ≠ 0 →
      StringReads chars n (a + 1) ((memRead a s).2.emit (chars (memRead a s).1)) t → StringReads chars (n + 1) a s t

/-! ### The invariant -/

/-- What holds of every state a run can be in: memory is in its canonical form; while a TRAP is unfinished the machine is
running and R7 holds the incremented pc (R168); a string routine stands at a whole number of laps, so at the address
that R0 holds (R124, log 11). -/
structure State.Inv (s : State) : Prop where
  memory_wf : s.mem.wf
  pending_running : s.pending ≠ none → s.run = .running
  pending_link : s.pending ≠ none → s.x config.linkReg = s.pc
  puts_address : ∀ a, s.pending = some (.puts a) → a = s.x config.trapArgReg
  putsp_address : ∀ a, s.pending = some (.putsp a) → a = s.x config.trapArgReg

end Sys2Proof.Machine
end

