-- ==== Sys2Proof/Certificates/Slice0/Obligations.lean ====
section
/-! DEFINITION. The statements for the provers. In those about `exec`, `s` is the state an instruction starts in, its `pc`
already incremented (10_state.md R30). The opcode numbers, the field positions, the mode bits and the mask bits in them are the
spec's own decisions D1 to D4 and D7 (log 2). -/

open Sys2Proof Sys2Proof.Machine

/-! ### Values and flags -/

/-- R8, the sign extension of an `n`-bit field: its formula and its law. -/
def Obligations.SignExtensionKeepsTheSignedValue : Prop :=
  ∀ (n : Nat) (f : BitVec n), 1 ≤ n → n ≤ 16 →
    (sext16 f).toInt = f.toInt ∧
    (f.msb = false → (sext16 f).toNat = f.toNat) ∧
    (f.msb = true → (sext16 f).toNat = f.toNat + (65536 - 2 ^ n))

/-- R24, `update_flags`: its classification, and which instructions call it and on which register. A GETC or IN that has
to wait has not called it yet (R168). -/
def Obligations.FlagsClassifyTheLastFlaggedResult : Prop :=
  (∀ (r : Reg) (s : State), ∃ t, updateFlags r s = t ∧ t = { s with cc := t.cc } ∧
    (s.x r = 0 → t.cc = .zero) ∧
    (s.x r ≠ 0 → (s.x r).getLsbD 15 = true → t.cc = .negative) ∧
    (s.x r ≠ 0 → (s.x r).getLsbD 15 = false → t.cc = .positive)) ∧
  (∀ (i : Instr) (s t : State), exec i s = .next t →
    (flagSource i = none → t.cc = s.cc) ∧
    (∀ r, flagSource i = some r →
      (blocksForInput i = true → s.inQ = [] → t.cc = s.cc) ∧
      (blocksForInput i = false ∨ s.inQ ≠ [] → t.cc = classify (t.x r))))

/-- R20: eight registers that hold what was last written, and which instructions write which. -/
def Obligations.RegistersChangeOnlyWhereWritten : Prop :=
  (∀ (s : State) (r r' : Reg) (v : Word), (s.setX r v).x r' = if r' = r then v else s.x r') ∧
  (∀ (i : Instr) (s t : State), exec i s = .next t → SameRegsExcept (writtenRegs i) s t)

/-- R22: only a taken BR, JMP, JSR and JSRR move the pc from its incremented value. -/
def Obligations.OnlyJumpsMoveThePc : Prop :=
  ∀ (i : Instr) (s t : State), exec i s = .next t → movesPc i s = false → t.pc = s.pc

/-- R25: the run state leaves `running` only by a fetched HALT or a fetched reserved opcode, and never leaves a terminal
state. -/
def Obligations.RunStateTransitions : Prop :=
  ∀ s t : State, step s = .next t →
    (s.run ≠ .running → t = s) ∧
    (s.run = .running →
      (t.run = .halted ↔ ∃ u, hostTurn s = some u ∧ u.pending = none ∧
        opcodeOf (fetch u).1 = config.opTrap ∧ fieldTrapvect8 (fetch u).1 = config.tvHalt) ∧
      (t.run = .aborted ↔ ∃ u, hostTurn s = some u ∧ u.pending = none ∧
        (opcodeOf (fetch u).1 = config.opResA ∨ opcodeOf (fetch u).1 = config.opResB)))

/-! ### Operate instructions -/

/-- R80, both forms of ADD: which words are ADD, the sum, the flags, and that nothing else changes. -/
def Obligations.AddSumsAndSetsTheFlags : Prop :=
  (∀ w, opcodeOf w = config.opAdd →
    (w.getLsbD 5 = false → decode w = .addReg (w.extractLsb' 9 3) (w.extractLsb' 6 3) (w.extractLsb' 0 3)) ∧
    (w.getLsbD 5 = true → decode w = .addImm (w.extractLsb' 9 3) (w.extractLsb' 6 3) (w.extractLsb' 0 5))) ∧
  (∀ (dr sr1 sr2 : Reg) (s : State), ∃ t, exec (.addReg dr sr1 sr2) s = .next t ∧
    t.x dr = BitVec.ofNat 16 (((s.x sr1).toNat + (s.x sr2).toNat) % 65536) ∧ t.cc = classify (t.x dr) ∧
    SameRegsExcept [dr] s t ∧ t.pc = s.pc ∧ SameMemoryExcept [] s t ∧ SameStreams s t ∧ SameRun s t) ∧
  (∀ (dr sr1 : Reg) (imm : BitVec 5) (s : State), ∃ t, exec (.addImm dr sr1 imm) s = .next t ∧
    t.x dr = BitVec.ofNat 16 (((s.x sr1).toNat + (sext16 imm).toNat) % 65536) ∧ t.cc = classify (t.x dr) ∧
    SameRegsExcept [dr] s t ∧ t.pc = s.pc ∧ SameMemoryExcept [] s t ∧ SameStreams s t ∧ SameRun s t)

/-- R81, both forms of AND. -/
def Obligations.AndMasksAndSetsTheFlags : Prop :=
  (∀ w, opcodeOf w = config.opAnd →
    (w.getLsbD 5 = false → decode w = .andReg (w.extractLsb' 9 3) (w.extractLsb' 6 3) (w.extractLsb' 0 3)) ∧
    (w.getLsbD 5 = true → decode w = .andImm (w.extractLsb' 9 3) (w.extractLsb' 6 3) (w.extractLsb' 0 5))) ∧
  (∀ (dr sr1 sr2 : Reg) (s : State), ∃ t, exec (.andReg dr sr1 sr2) s = .next t ∧
    (∀ k, k < 16 → (t.x dr).getLsbD k = ((s.x sr1).getLsbD k && (s.x sr2).getLsbD k)) ∧ t.cc = classify (t.x dr) ∧
    SameRegsExcept [dr] s t ∧ t.pc = s.pc ∧ SameMemoryExcept [] s t ∧ SameStreams s t ∧ SameRun s t) ∧
  (∀ (dr sr1 : Reg) (imm : BitVec 5) (s : State), ∃ t, exec (.andImm dr sr1 imm) s = .next t ∧
    (∀ k, k < 16 → (t.x dr).getLsbD k = ((s.x sr1).getLsbD k && (sext16 imm).getLsbD k)) ∧ t.cc = classify (t.x dr) ∧
    SameRegsExcept [dr] s t ∧ t.pc = s.pc ∧ SameMemoryExcept [] s t ∧ SameStreams s t ∧ SameRun s t)

/-- R82, NOT. -/
def Obligations.NotComplementsAndSetsTheFlags : Prop :=
  (∀ w, opcodeOf w = config.opNot → decode w = .not (w.extractLsb' 9 3) (w.extractLsb' 6 3)) ∧
  (∀ (dr sr : Reg) (s : State), ∃ t, exec (.not dr sr) s = .next t ∧
    (t.x dr).toNat = 65535 - (s.x sr).toNat ∧ t.cc = classify (t.x dr) ∧
    SameRegsExcept [dr] s t ∧ t.pc = s.pc ∧ SameMemoryExcept [] s t ∧ SameStreams s t ∧ SameRun s t)

/-! ### Control transfer -/

/-- R90, BR: taken iff the mask names the flag's value, bit 11 NEGATIVE, bit 10 ZERO, bit 9 POSITIVE (the spec's decision
D4, log 2). Only the pc may change. -/
def Obligations.BranchIsTakenWhenItsMaskMeetsTheFlag : Prop :=
  (∀ w, opcodeOf w = config.opBr →
    decode w = .br (w.getLsbD 11) (w.getLsbD 10) (w.getLsbD 9) (w.extractLsb' 0 9)) ∧
  (∀ (n z p : Bool) (off : BitVec 9) (s : State), ∃ t, exec (.br n z p off) s = .next t ∧
    ((n = true ∧ s.cc = .negative) ∨ (z = true ∧ s.cc = .zero) ∨ (p = true ∧ s.cc = .positive) →
      t.pc = BitVec.ofNat 16 ((s.pc.toNat + (sext16 off).toNat) % 65536)) ∧
    (¬ ((n = true ∧ s.cc = .negative) ∨ (z = true ∧ s.cc = .zero) ∨ (p = true ∧ s.cc = .positive)) → t.pc = s.pc) ∧
    SameRegsExcept [] s t ∧ t.cc = s.cc ∧ SameMemoryExcept [] s t ∧ SameStreams s t ∧ SameRun s t)

/-- R91, JMP. -/
def Obligations.JmpGoesWhereTheRegisterSays : Prop :=
  (∀ w, opcodeOf w = config.opJmp → decode w = .jmp (w.extractLsb' 6 3)) ∧
  (∀ (base : Reg) (s : State), ∃ t, exec (.jmp base) s = .next t ∧ t.pc = s.x base ∧
    SameRegsExcept [] s t ∧ t.cc = s.cc ∧ SameMemoryExcept [] s t ∧ SameStreams s t ∧ SameRun s t)

/-- R92, JSR: R7 gets the incremented pc, and the target is relative to it. -/
def Obligations.JsrLinksAndGoesByOffset : Prop :=
  (∀ w, opcodeOf w = config.opJsr → w.getLsbD 11 = true → decode w = .jsr (w.extractLsb' 0 11)) ∧
  (∀ (off : BitVec 11) (s : State), ∃ t, exec (.jsr off) s = .next t ∧ t.x 7 = s.pc ∧
    t.pc = BitVec.ofNat 16 ((s.pc.toNat + (sext16 off).toNat) % 65536) ∧
    SameRegsExcept [7] s t ∧ t.cc = s.cc ∧ SameMemoryExcept [] s t ∧ SameStreams s t ∧ SameRun s t)

/-- R93, JSRR: the save comes first, so JSRR R7 falls through with R7 holding the next address. -/
def Obligations.JsrrLinksBeforeItReadsTheBase : Prop :=
  (∀ w, opcodeOf w = config.opJsr → w.getLsbD 11 = false → decode w = .jsrr (w.extractLsb' 6 3)) ∧
  (∀ (base : Reg) (s : State), ∃ t, exec (.jsrr base) s = .next t ∧ t.x 7 = s.pc ∧
    (base ≠ 7 → t.pc = s.x base) ∧ (base = 7 → t.pc = s.pc) ∧
    SameRegsExcept [7] s t ∧ t.cc = s.cc ∧ SameMemoryExcept [] s t ∧ SameStreams s t ∧ SameRun s t)

/-! ### Loads and stores. `memRead` is the bus read; what it does is stated under the bus below. -/

/-- R100, LD. -/
def Obligations.LdLoadsFromThePcRelativeAddress : Prop :=
  (∀ w, opcodeOf w = config.opLd → decode w = .ld (w.extractLsb' 9 3) (w.extractLsb' 0 9)) ∧
  (∀ (dr : Reg) (off : BitVec 9) (s : State), ∃ t, exec (.ld dr off) s = .next t ∧
    t.x dr = (memRead (s.pc + sext16 off) s).1 ∧ t.cc = classify (t.x dr) ∧ SameRegsExcept [dr] s t ∧ t.pc = s.pc ∧
    SameMemoryExcept [] (memRead (s.pc + sext16 off) s).2 t ∧ SameStreams (memRead (s.pc + sext16 off) s).2 t ∧
    t.out = s.out ∧ SameRun s t)

/-- R101, LDI: two bus reads in order, the pointer and then the data. -/
def Obligations.LdiLoadsThroughAPointer : Prop :=
  (∀ w, opcodeOf w = config.opLdi → decode w = .ldi (w.extractLsb' 9 3) (w.extractLsb' 0 9)) ∧
  (∀ (dr : Reg) (off : BitVec 9) (s : State), ∃ t, exec (.ldi dr off) s = .next t ∧
    ∃ (ea : Word) (u : State), memRead (s.pc + sext16 off) s = (ea, u) ∧
    t.x dr = (memRead ea u).1 ∧ t.cc = classify (t.x dr) ∧ SameRegsExcept [dr] s t ∧ t.pc = s.pc ∧
    SameMemoryExcept [] (memRead ea u).2 t ∧ SameStreams (memRead ea u).2 t ∧ t.out = s.out ∧ SameRun s t)

/-- R102, LDR. -/
def Obligations.LdrLoadsFromTheBaseAndOffset : Prop :=
  (∀ w, opcodeOf w = config.opLdr → decode w = .ldr (w.extractLsb' 9 3) (w.extractLsb' 6 3) (w.extractLsb' 0 6)) ∧
  (∀ (dr base : Reg) (off : BitVec 6) (s : State), ∃ t, exec (.ldr dr base off) s = .next t ∧
    t.x dr = (memRead (s.x base + sext16 off) s).1 ∧ t.cc = classify (t.x dr) ∧ SameRegsExcept [dr] s t ∧
    t.pc = s.pc ∧ SameMemoryExcept [] (memRead (s.x base + sext16 off) s).2 t ∧
    SameStreams (memRead (s.x base + sext16 off) s).2 t ∧ t.out = s.out ∧ SameRun s t)

/-- R103, LEA: the address, with no access, and the flags from it. -/
def Obligations.LeaLoadsTheAddressItself : Prop :=
  (∀ w, opcodeOf w = config.opLea → decode w = .lea (w.extractLsb' 9 3) (w.extractLsb' 0 9)) ∧
  (∀ (dr : Reg) (off : BitVec 9) (s : State), ∃ t, exec (.lea dr off) s = .next t ∧
    t.x dr = BitVec.ofNat 16 ((s.pc.toNat + (sext16 off).toNat) % 65536) ∧ t.cc = classify (t.x dr) ∧
    SameRegsExcept [dr] s t ∧ t.pc = s.pc ∧ SameMemoryExcept [] s t ∧ SameStreams s t ∧ SameRun s t)

/-- R104, ST. -/
def Obligations.StStoresAtThePcRelativeAddress : Prop :=
  (∀ w, opcodeOf w = config.opSt → decode w = .st (w.extractLsb' 9 3) (w.extractLsb' 0 9)) ∧
  (∀ (sr : Reg) (off : BitVec 9) (s : State), ∃ t, exec (.st sr off) s = .next t ∧
    (∀ ea, pcRel off s = ea →
      ea = BitVec.ofNat 16 ((s.pc.toNat + (sext16 off).toNat) % 65536) ∧ t.peek ea = s.x sr ∧
      SameMemoryExcept [ea] s t) ∧
    SameRegsExcept [] s t ∧ t.cc = s.cc ∧ t.pc = s.pc ∧ SameStreams s t ∧ SameRun s t)

/-- R105, STI: the pointer's bus read, then the write. -/
def Obligations.StiStoresThroughAPointer : Prop :=
  (∀ w, opcodeOf w = config.opSti → decode w = .sti (w.extractLsb' 9 3) (w.extractLsb' 0 9)) ∧
  (∀ (sr : Reg) (off : BitVec 9) (s : State), ∃ t, exec (.sti sr off) s = .next t ∧
    (∀ ea u, memRead (pcRel off s) s = (ea, u) →
      t.peek ea = s.x sr ∧ SameMemoryExcept [ea] u t ∧ t.inQ = u.inQ) ∧
    SameRegsExcept [] s t ∧ t.cc = s.cc ∧ t.pc = s.pc ∧ t.out = s.out ∧ SameRun s t)

/-- R106, STR. -/
def Obligations.StrStoresAtTheBaseAndOffset : Prop :=
  (∀ w, opcodeOf w = config.opStr → decode w = .str (w.extractLsb' 9 3) (w.extractLsb' 6 3) (w.extractLsb' 0 6)) ∧
  (∀ (sr base : Reg) (off : BitVec 6) (s : State), ∃ t, exec (.str sr base off) s = .next t ∧
    (∀ ea, baseOff base off s = ea →
      ea = BitVec.ofNat 16 (((s.x base).toNat + (sext16 off).toNat) % 65536) ∧ t.peek ea = s.x sr ∧
      SameMemoryExcept [ea] s t) ∧
    SameRegsExcept [] s t ∧ t.cc = s.cc ∧ t.pc = s.pc ∧ SameStreams s t ∧ SameRun s t)

/-! ### TRAP and its routines -/

/-- R120, TRAP with any vector: a TRAP word's instruction is the row its vector selects, the general row acts as that
row (the model's choice, log 17; the vector numbers are the spec's decision D6, log 4), R7 gets the incremented pc, and
the pc stays. That it answers a next state also for a string that never ends, and for GETC and IN on an empty queue, is
the model's choice (logs 11, 10). -/
def Obligations.TrapLinksAndSelectsByItsVector : Prop :=
  (∀ w, opcodeOf w = config.opTrap → decode w = refineTrap (w.extractLsb' 0 8)) ∧
  (∀ (v : Byte) (s : State), ∃ t, exec (.trap v) s = .next t ∧ exec (refineTrap v) s = .next t ∧
    t.x 7 = s.pc ∧ t.pc = s.pc)

/-- R122, GETC: with a character it takes it, unechoed; with none it waits inside the routine, R7 already written
(R168; the field that says so is the model's, log 10). -/
def Obligations.GetcTakesOneCharacter : Prop :=
  (∀ w, opcodeOf w = config.opTrap → w.extractLsb' 0 8 = config.tvGetc → decode w = .getc) ∧
  (∀ (s : State) (b : Byte) (rest : List Byte), s.inQ = b :: rest → ∃ t, exec .getc s = .next t ∧
    t.x 7 = s.pc ∧ (t.x 0).toNat = b.toNat ∧ t.cc = (if b = 0 then .zero else .positive) ∧
    SameRegsExcept [7, 0] s t ∧ t.pc = s.pc ∧ SameMemoryExcept [] s t ∧ t.inQ = rest ∧ t.out = s.out ∧
    t.run = s.run ∧ t.host = s.host ∧ t.pending = none) ∧
  (∀ s : State, s.inQ = [] → ∃ t, exec .getc s = .next t ∧ t.x 7 = s.pc ∧
    SameRegsExcept [7] s t ∧ t.cc = s.cc ∧ t.pc = s.pc ∧ SameMemoryExcept [] s t ∧ SameStreams s t ∧
    t.run = s.run ∧ t.host = s.host ∧ t.pending = some .getc)

/-- R123, OUT. -/
def Obligations.OutEmitsTheLowByteOfR0 : Prop :=
  (∀ w, opcodeOf w = config.opTrap → w.extractLsb' 0 8 = config.tvOut → decode w = .out) ∧
  (∀ s : State, ∃ t, exec .out s = .next t ∧ t.x 7 = s.pc ∧ t.out = s.out ++ [(s.x 0).extractLsb' 0 8] ∧
    SameRegsExcept [7] s t ∧ t.cc = s.cc ∧ t.pc = s.pc ∧ SameMemoryExcept [] s t ∧ t.inQ = s.inQ ∧ SameRun s t)

/-- R124, PUTS on a string of `k` words that does not cross the status address: one low byte a word, the zero word not
among them. A string that crosses it is `StringRoutinesFollowTheirLoop`'s. The low byte and the wrap are the
spec's decision D12 (log 12). -/
def Obligations.PutsEmitsOneByteAWord : Prop :=
  ∀ (s : State) (k : Nat), k < 65536 →
    (∀ j, j ≤ k → s.x 0 + BitVec.ofNat 16 j ≠ config.kbsrAddr) →
    (∀ j, j < k → s.peek (s.x 0 + BitVec.ofNat 16 j) ≠ 0) → s.peek (s.x 0 + BitVec.ofNat 16 k) = 0 →
    ∃ t, exec .puts s = .next t ∧ t.x 7 = s.pc ∧
      t.out = s.out ++ (List.range k).map (fun j => (s.peek (s.x 0 + BitVec.ofNat 16 j)).extractLsb' 0 8) ∧
      SameRegsExcept [7] s t ∧ t.cc = s.cc ∧ t.pc = s.pc ∧ SameMemoryExcept [] s t ∧ t.inQ = s.inQ ∧
      t.run = s.run ∧ t.host = s.host ∧ t.pending = none

/-- R125, IN: the prompt, then as GETC with an echo; with no character it waits, the prompt already out.
The prompt's text, the zero extension and this order are the spec's decisions D13 and D22 (logs 13, 15). -/
def Obligations.InPromptsEchoesAndStores : Prop :=
  (∀ w, opcodeOf w = config.opTrap → w.extractLsb' 0 8 = config.tvIn → decode w = .in_) ∧
  (∀ (s : State) (b : Byte) (rest : List Byte), s.inQ = b :: rest → ∃ t, exec .in_ s = .next t ∧
    t.x 7 = s.pc ∧ (t.x 0).toNat = b.toNat ∧ t.cc = (if b = 0 then .zero else .positive) ∧
    SameRegsExcept [7, 0] s t ∧ t.pc = s.pc ∧ SameMemoryExcept [] s t ∧ t.inQ = rest ∧
    t.out = s.out ++ config.inPrompt ++ [b] ∧ t.run = s.run ∧ t.host = s.host ∧ t.pending = none) ∧
  (∀ s : State, s.inQ = [] → ∃ t, exec .in_ s = .next t ∧ t.x 7 = s.pc ∧ t.out = s.out ++ config.inPrompt ∧
    SameRegsExcept [7] s t ∧ t.cc = s.cc ∧ t.pc = s.pc ∧ SameMemoryExcept [] s t ∧ t.inQ = [] ∧
    t.run = s.run ∧ t.host = s.host ∧ t.pending = some .in_)

/-- R126, PUTSP on a string of `k` words that does not cross the status address: the low byte of each word, then its
high byte unless that is zero. The wrap is the spec's decision D12 (log 12). -/
def Obligations.PutspEmitsPackedBytes : Prop :=
  ∀ (s : State) (k : Nat), k < 65536 →
    (∀ j, j ≤ k → s.x 0 + BitVec.ofNat 16 j ≠ config.kbsrAddr) →
    (∀ j, j < k → s.peek (s.x 0 + BitVec.ofNat 16 j) ≠ 0) → s.peek (s.x 0 + BitVec.ofNat 16 k) = 0 →
    ∃ t, exec .putsp s = .next t ∧ t.x 7 = s.pc ∧
      t.out = s.out ++ (List.range k).flatMap (fun j =>
        (s.peek (s.x 0 + BitVec.ofNat 16 j)).extractLsb' 0 8 ::
          [(s.peek (s.x 0 + BitVec.ofNat 16 j)).extractLsb' 8 8].filter (fun b => b != 0)) ∧
      SameRegsExcept [7] s t ∧ t.cc = s.cc ∧ t.pc = s.pc ∧ SameMemoryExcept [] s t ∧ t.inQ = s.inQ ∧
      t.run = s.run ∧ t.host = s.host ∧ t.pending = none

/-- R124 and R126 for every string, those that poll among them. If the rule's unbounded loop ends within one lap of the
address space, the TRAP ends in the loop's last state. If it does not, the loop has made the lap's reads and emitted
their characters, the routine stands unfinished in just that state at the address it started from, and its next lap
obeys the same from there; a loop that ends later is the lap and then the rest of it (the lap is the model's choice,
log 11; the reads through the bus are the spec's decision D12, log 12). -/
def Obligations.StringRoutinesFollowTheirLoop : Prop :=
  (∀ (s t : State) (n : Nat), n ≤ config.memWords → StringRun putsChars n (s.x 0) (saveLink s) t →
    exec .puts s = .next (t.setPending none)) ∧
  (∀ (s t : State) (n : Nat), n ≤ config.memWords → StringRun putspChars n (s.x 0) (saveLink s) t →
    exec .putsp s = .next (t.setPending none)) ∧
  (∀ s t : State, StringReads putsChars config.memWords (s.x 0) (saveLink s) t →
    exec .puts s = .next (t.setPending (some (.puts (s.x 0))))) ∧
  (∀ s t : State, StringReads putspChars config.memWords (s.x 0) (saveLink s) t →
    exec .putsp s = .next (t.setPending (some (.putsp (s.x 0))))) ∧
  (∀ s : State, (∀ n t, n ≤ config.memWords → ¬ StringRun putsChars n (s.x 0) (saveLink s) t) →
    ∃ u, exec .puts s = .next u ∧ u.pending = some (.puts (s.x 0))) ∧
  (∀ s : State, (∀ n t, n ≤ config.memWords → ¬ StringRun putspChars n (s.x 0) (saveLink s) t) →
    ∃ u, exec .putsp s = .next u ∧ u.pending = some (.putsp (s.x 0))) ∧
  (∀ (a : Word) (s t : State) (n : Nat), n ≤ config.memWords →
    (StringRun putsChars n a s t → resume (.puts a) s = t.setPending none) ∧
    (StringRun putspChars n a s t → resume (.putsp a) s = t.setPending none)) ∧
  (∀ (a : Word) (s t : State),
    (StringReads putsChars config.memWords a s t → resume (.puts a) s = t.setPending (some (.puts a))) ∧
    (StringReads putspChars config.memWords a s t → resume (.putsp a) s = t.setPending (some (.putsp a)))) ∧
  (∀ (a : Word) (s : State),
    ((∀ n t, n ≤ config.memWords → ¬ StringRun putsChars n a s t) → (resume (.puts a) s).pending = some (.puts a)) ∧
    ((∀ n t, n ≤ config.memWords → ¬ StringRun putspChars n a s t) → (resume (.putsp a) s).pending = some (.putsp a))) ∧
  (∀ (chars : Word → List Byte) (a : Word) (s : State),
    (∃ n t, n ≤ config.memWords ∧ StringRun chars n a s t) ∨ ∃ t, StringReads chars config.memWords a s t) ∧
  (∀ (chars : Word → List Byte) (n : Nat) (a : Word) (s t : State), StringRun chars (config.memWords + (n + 1)) a s t →
    ∃ u, StringReads chars config.memWords a s u ∧ StringRun chars (n + 1) a u t)

/-- R127, HALT. The notice's line feed is the spec's decision D14 (log 14). -/
def Obligations.HaltPrintsItsNoticeAndHalts : Prop :=
  (∀ w, opcodeOf w = config.opTrap → w.extractLsb' 0 8 = config.tvHalt → decode w = .halt) ∧
  (∀ s : State, ∃ t, exec .halt s = .next t ∧ t.run = .halted ∧ t.x 7 = s.pc ∧
    t.out = s.out ++ [0x48, 0x41, 0x4C, 0x54, 0x0A] ∧ SameRegsExcept [7] s t ∧ t.cc = s.cc ∧ t.pc = s.pc ∧
    SameMemoryExcept [] s t ∧ t.inQ = s.inQ ∧ t.pending = s.pending ∧ t.host = s.host)

/-- R128, an undefined vector: R7 and nothing else, by the refined row and by the general one. -/
def Obligations.UndefinedVectorOnlyWritesR7 : Prop :=
  (∀ w, opcodeOf w = config.opTrap → w.extractLsb' 0 8 ∉ definedVectors →
    decode w = .trapUndefined (w.extractLsb' 0 8)) ∧
  (∀ (v : Byte) (s : State), v ∉ definedVectors →
    ∃ t, exec (.trapUndefined v) s = .next t ∧ exec (.trap v) s = .next t ∧ t.x 7 = s.pc ∧
      SameRegsExcept [7] s t ∧ t.cc = s.cc ∧ t.pc = s.pc ∧ SameMemoryExcept [] s t ∧ SameStreams s t ∧ SameRun s t)

/-! ### The illegal-opcode exception -/

/-- R140, both reserved opcodes (their numbers are the spec's decision D7, log 2): `run` becomes aborted, and nothing else
changes. -/
def Obligations.ReservedOpcodesAbort : Prop :=
  (∀ w, (opcodeOf w = config.opResA → decode w = .reservedA) ∧ (opcodeOf w = config.opResB → decode w = .reservedB)) ∧
  (∀ s : State, ∃ t, exec .reservedA s = .next t ∧ exec .reservedB s = .next t ∧ t.run = .aborted ∧
    SameRegsExcept [] s t ∧ t.cc = s.cc ∧ t.pc = s.pc ∧ SameMemoryExcept [] s t ∧ SameStreams s t ∧
    t.pending = s.pending ∧ t.host = s.host)

/-- R150, R151 on the whole cycle: the pc ends past the illegal word, the fetch's own effect stays, and the next step
changes nothing (that a terminal machine's step answers its own state is the model's choice, log 18). -/
def Obligations.IllegalOpcodeEndsTheRunPrecisely : Prop :=
  ∀ (s u : State), s.run = .running → hostTurn s = some u → u.pending = none →
    (opcodeOf (memRead u.pc u).1 = config.opResA ∨ opcodeOf (memRead u.pc u).1 = config.opResB) →
    ∃ t, step s = .next t ∧ step t = .next t ∧ t.run = .aborted ∧ t.pc = u.pc + 1 ∧ SameRegsExcept [] s t ∧
      t.cc = s.cc ∧ t.out = s.out ∧ SameMemoryExcept [] (memRead u.pc u).2 t ∧ t.inQ = (memRead u.pc u).2.inQ

/-! ### The bus and memory -/

/-- R41 (and R45 at the data address): a bus read of any other address returns the word and changes nothing. -/
def Obligations.PlainReadsHaveNoSideEffect : Prop :=
  ∀ (a : Word) (s : State), a ≠ config.kbsrAddr → memRead a s = (s.peek a, s)

/-- R42: a bus read of the status address polls once, updates the mapped words and returns the updated status word, for
the setting of `KBSR_READY_PRESERVES_LOW` that the configuration has. That word, the character's zero extension and its
consumption are the spec's decisions D9 and D10 (logs 6, 7). -/
def Obligations.StatusReadPollsOnce : Prop :=
  (∀ s : State, s.inQ = [] → ∃ t, memRead config.kbsrAddr s = (0, t) ∧ t.peek config.kbsrAddr = 0 ∧
    SameMemoryExcept [config.kbsrAddr] s t ∧ SameRegsExcept [] s t ∧ t.pc = s.pc ∧ t.cc = s.cc ∧ SameStreams s t ∧
    SameRun s t) ∧
  (∀ (s : State) (b : Byte) (rest : List Byte), s.inQ = b :: rest →
    ∃ v t, memRead config.kbsrAddr s = (v, t) ∧
      v = (if config.kbsrReadyPreservesLow then s.peek config.kbsrAddr ||| 0x8000 else 0x8000) ∧
      t.peek config.kbsrAddr = v ∧ (t.peek config.kbdrAddr).toNat = b.toNat ∧
      SameMemoryExcept [config.kbsrAddr, config.kbdrAddr] s t ∧ t.inQ = rest ∧ t.out = s.out ∧
      SameRegsExcept [] s t ∧ t.pc = s.pc ∧ t.cc = s.cc ∧ SameRun s t)

/-- R43, R44: a bus write is plain at every address, the mapped ones among them. -/
def Obligations.BusWritesArePlain : Prop :=
  ∀ (a v : Word) (s : State), ∃ t, memWrite a v s = t ∧ t.peek a = v ∧ SameMemoryExcept [a] s t ∧
    SameRegsExcept [] s t ∧ t.pc = s.pc ∧ t.cc = s.cc ∧ SameStreams s t ∧ SameRun s t

/-- R53 and the source's ST-then-LD property with its one exception (C6): a load at the address just stored to returns
the value, except at the status address, where it returns the poll's answer. -/
def Obligations.LoadReturnsTheStoredValue : Prop :=
  ∀ (s t u : State) (sr dr : Reg) (off1 off2 : BitVec 9),
    exec (.st sr off1) s = .next t → SameMemoryExcept [] t u → u.pc + sext16 off2 = s.pc + sext16 off1 →
    ∃ v, exec (.ld dr off2) u = .next v ∧
      (s.pc + sext16 off1 ≠ config.kbsrAddr → v.x dr = s.x sr ∧ v.cc = classify (s.x sr)) ∧
      (s.pc + sext16 off1 = config.kbsrAddr → u.inQ = [] → v.x dr = 0 ∧ v.cc = .zero)

/-- R53: no instruction changes a word of memory other than the one it stores to, but for the two mapped words, which a
poll writes. -/
def Obligations.MemoryChangesOnlyByStoresAndPolls : Prop :=
  ∀ (i : Instr) (s t : State) (a : Word), exec i s = .next t → storeAddr i s ≠ some a →
    a ≠ config.kbsrAddr → a ≠ config.kbdrAddr → t.peek a = s.peek a

/-- R55: a store to the next word is what the next step executes. -/
def Obligations.StoredWordIsFetchedNext : Prop :=
  ∀ (s : State) (i : Instr) (sr : Reg), s.run = .running → s.host = HostPlan.idle → s.pending = none →
    s.pc ≠ config.kbsrAddr → s.pc + 1 ≠ config.kbsrAddr → decode (s.peek s.pc) = i →
    (∃ off, i = .st sr off) ∨ (∃ off, i = .sti sr off) ∨ (∃ base off, i = .str sr base off) →
    storeAddr i (s.setPc (s.pc + 1)) = some (s.pc + 1) →
    ∃ t, step s = .next t ∧ t.pc = s.pc + 1 ∧ t.peek t.pc = s.x sr ∧
      step t = exec (decode (s.x sr)) (t.setPc (t.pc + 1))

/-- Two memories in canonical form that read the same at every address are the same data (log 1). -/
def Obligations.CanonicalMemoriesAreEqualWhenTheyReadAlike : Prop :=
  ∀ m m' : Memory, m.wf → m'.wf → (∀ a, a < config.memWords → m.read a = m'.read a) → m = m'

/-! ### Reset and loading -/

/-- R32: the state after reset, for every value of the general registers, every buffered input and every coming move of
the host. That `State.reset` is one of these, with the values of logs 5 and 9, is the model's choice. -/
def Obligations.ResetGivesTheListedValues : Prop :=
  (∀ (regs : Vector Word 8) (inQ : List Byte) (host : HostPlan), ∃ s, State.resetWith regs inQ host = s ∧
    s.pc = 0x3000 ∧ s.cc = .zero ∧ s.run = .running ∧ (∀ a, s.peek a = 0) ∧ s.out = [] ∧ s.pending = none ∧
    (∀ r : Reg, s.x r = regs.get r.toFin) ∧ s.inQ = inQ ∧ s.host = host) ∧
  (∃ regs inQ host, State.reset = State.resetWith regs inQ host)

/-- R182, R184: what an image puts where. Word `k` of the stream after the origin goes to origin + `k` while that is inside
the address space; nothing else changes. Streams without an origin and dangling bytes are the spec's decision D20
(log 20). -/
def Obligations.LoadImageWritesTheStreamFromItsOrigin : Prop :=
  ∀ (bytes : List Byte) (s : State),
    loadImage bytes s = { s with mem := (loadImage bytes s).mem } ∧
    (bytes.length < 2 → loadImage bytes s = s) ∧
    (2 ≤ bytes.length → ∀ (o : Nat) (a : Word), o = (bytes.getD 0 0).toNat * 256 + (bytes.getD 1 0).toNat →
      (o ≤ a.toNat ∧ 2 * (a.toNat - o) + 3 < bytes.length →
        ((loadImage bytes s).peek a).toNat =
          (bytes.getD (2 * (a.toNat - o) + 2) 0).toNat * 256 + (bytes.getD (2 * (a.toNat - o) + 3) 0).toNat) ∧
      (¬ (o ≤ a.toNat ∧ 2 * (a.toNat - o) + 3 < bytes.length) → (loadImage bytes s).peek a = s.peek a))

/-- R180, R185, R186: images are applied in order over the reset state, the pc stays at PC_RESET, and one that fails
to load leaves no run at all (a failed load as `none` is the model's choice, log 20). -/
def Obligations.LaunchAppliesTheImagesInOrder : Prop :=
  ∀ (regs : Vector Word 8) (inQ : List Byte) (host : HostPlan) (images : List (Option (List Byte))),
    (none ∈ images → launch regs inQ host images = none) ∧
    (∀ streams : List (List Byte), images = streams.map some →
      launch regs inQ host images =
        some (streams.foldl (fun s b => loadImage b s) (State.resetWith regs inQ host))) ∧
    (∀ s, launch regs inQ host images = some s →
      s.pc = config.pcReset ∧ s.cc = .zero ∧ s.run = .running ∧ s.regs = regs ∧ s.out = [] ∧ s.pending = none)

/-! ### The step -/

/-- R30: a running machine that is inside no routine fetches through the bus, increments the pc and runs the decoded
instruction; so it runs exactly the well-formed instruction whose word stands at the pc. Inside a
routine it goes on with that routine (R168, R195; logs 10, 11). The host moves first (the model's choice, log 9). -/
def Obligations.StepRunsTheFetchedInstruction : Prop :=
  (∀ s u : State, s.run = .running → hostTurn s = some u → u.pending = none →
    step s = exec (decode (memRead u.pc u).1) ((memRead u.pc u).2.setPc (u.pc + 1))) ∧
  (∀ (s u : State) (i : Instr), s.run = .running → hostTurn s = some u → u.pending = none → i.WellFormed →
    u.pc ≠ config.kbsrAddr → u.peek u.pc = encode i → step s = exec i (u.setPc (u.pc + 1))) ∧
  (∀ (s u : State) (r : Routine), s.run = .running → hostTurn s = some u → u.pending = some r →
    step s = .next (resume r u)) ∧
  (∀ s : State, s.host = HostPlan.idle → hostTurn s = some s) ∧
  (∀ (s : State) (bytes : List Byte) (rest again : List HostMove), s.host = ⟨.append bytes :: rest, again⟩ →
    hostTurn s = some { s with inQ := s.inQ ++ bytes, host := ⟨rest, again⟩ }) ∧
  (∀ (s : State) (bytes : List Byte) (rest : List HostMove), s.host = ⟨[], .append bytes :: rest⟩ →
    hostTurn s = some { s with inQ := s.inQ ++ bytes, host := ⟨rest, .append bytes :: rest⟩ })

/-- R169: `halted` and `aborted` are final: a step of a terminal machine answers its own state (the model's choice,
log 18). -/
def Obligations.TerminalStatesNeverChange : Prop :=
  ∀ (s t : State), s.Terminal → Reaches s t → t = s

/-- R168: a blocked GETC or IN waits while the queue is empty and completes on the step that finds a character
(waiting as steps that change nothing is the model's choice, log 10). -/
def Obligations.BlockedReadsWaitForACharacter : Prop :=
  ∀ s u : State, s.run = .running → hostTurn s = some u →
    (s.pending = some .getc ∨ s.pending = some .in_ → u.inQ = [] → step s = .next u) ∧
    (∀ b rest, s.pending = some .getc → u.inQ = b :: rest → ∃ t, step s = .next t ∧ (t.x 0).toNat = b.toNat ∧
      t.cc = (if b = 0 then .zero else .positive) ∧ SameRegsExcept [0] s t ∧ t.pc = s.pc ∧ SameMemoryExcept [] s t ∧
      t.inQ = rest ∧ t.out = s.out ∧ t.run = .running ∧ t.pending = none) ∧
    (∀ b rest, s.pending = some .in_ → u.inQ = b :: rest → ∃ t, step s = .next t ∧ (t.x 0).toNat = b.toNat ∧
      t.cc = (if b = 0 then .zero else .positive) ∧ SameRegsExcept [0] s t ∧ t.pc = s.pc ∧ SameMemoryExcept [] s t ∧
      t.inQ = rest ∧ t.out = s.out ++ [b] ∧ t.run = .running ∧ t.pending = none)

/-- R152, R155: no instruction faults and no step refuses; the step faults exactly when the host ends the run at a cycle
boundary or during a blocked read (the kill as a fault is the model's choice, log 19). That a TRAP answers a next state
too where R124 gives an endless string no end, and where R168 makes GETC and IN wait, is the model's choice (logs 11,
10). -/
def Obligations.OnlyTheHostStopsAStep : Prop :=
  (∀ (i : Instr) (s : State), ∃ t, exec i s = .next t) ∧
  (∀ (s : State) (r : Refusal), step s ≠ .refused r) ∧
  (∀ (s : State) (f : Fault), step s = .fault f ↔
    f = .hostKill ∧ s.run = .running ∧ (∃ plan, nextMove s.host = some (.kill, plan)) ∧
      (s.pending = none ∨ s.pending = some .getc ∨ s.pending = some .in_))

/-! ### The streams -/

/-- R29, R162: the output stream only grows, and only by TRAP. -/
def Obligations.OutputOnlyGrowsAndOnlyByTrap : Prop :=
  (∀ s t : State, step s = .next t → ∃ bytes, t.out = s.out ++ bytes) ∧
  (∀ (i : Instr) (s t : State), exec i s = .next t → isTrap i = false → t.out = s.out)

/-- R28, R161: characters leave the queue from its head, in the order the host appended them, and none is invented
(first in, first out is the spec's decision D11, log 8; the host's plan is the model's choice, log 9). -/
def Obligations.InputIsTakenInOrder : Prop :=
  ∀ s t : State, step s = .next t → ∃ taken, s.inQ ++ arrivals s = taken ++ t.inQ

/-- R29: what has been output never affects later execution. -/
def Obligations.OutputNeverAffectsExecution : Prop :=
  ∀ (bytes : List Byte) (s : State),
    (∀ t, step s = .next t → step (s.prefixOut bytes) = .next (t.prefixOut bytes)) ∧
    (∀ f, step s = .fault f → step (s.prefixOut bytes) = .fault f)

/-! ### The invariant -/

/-- Every step keeps the invariant: canonical memory; an unfinished TRAP is of a running machine with R7 the incremented
pc (R168, log 10); a string routine stands at R0's address (log 11). The canonical form is log 1's. -/
def Obligations.StepKeepsTheStateWellFormed : Prop :=
  ∀ s t : State, s.Inv → step s = .next t → t.Inv

/-- The invariant holds after reset, for every register value and every host. -/
def Obligations.ResetIsWellFormed : Prop :=
  State.reset.Inv ∧ ∀ (regs : Vector Word 8) (inQ : List Byte) (host : HostPlan), (State.resetWith regs inQ host).Inv

/-- The invariant holds when a run starts, whatever images were loaded, and so in every state of the run. It rests on the
model's choices of logs 1, 10 and 11, as the invariant does. -/
def Obligations.RunsStayWellFormed : Prop :=
  ∀ (regs : Vector Word 8) (inQ : List Byte) (host : HostPlan) (images : List (Option (List Byte))) (s t : State),
    launch regs inQ host images = some s → Reaches s t → t.Inv

/-- R124, R126: an unfinished string routine ends once the host supplies nothing more: each lap reads the status address,
and takes a character or ends (log 11). -/
def Obligations.StringsEndOnceInputRunsDry : Prop :=
  ∀ (s : State) (a : Word), s.run = .running → s.host = HostPlan.idle →
    (s.pending = some (.puts a) ∨ s.pending = some (.putsp a)) →
    ∃ n t, n ≤ s.inQ.length + 1 ∧ stepsFrom n s = .next t ∧ t.pending = none

/-! ### Encoding -/

/-- Every well-formed instruction comes back from its word, with every operand at every value (R60 to R64, R68). The
general TRAP row, which is not well formed, comes back as the row that its vector selects (log 17). -/
def Obligations.DecodeInvertsEncode : Prop :=
  (∀ i : Instr, i.WellFormed → decode (encode i) = i) ∧ (∀ v : Byte, decode (encode (.trap v)) = refineTrap v)

/-- R65 (D8, log 16): a word's instruction does not depend on its ignored bits, and no other bit of it is lost. -/
def Obligations.DecodeReadsAllButTheIgnoredBits : Prop :=
  (∀ w w' : Word, w &&& (decode w).readBits = w' &&& (decode w).readBits → decode w' = decode w) ∧
  (∀ w : Word, encode (decode w) &&& (decode w).readBits = w &&& (decode w).readBits)

/-- R64 (its numbers are the spec's decisions D1 and D7, log 2): every word selects exactly one row of the opcode map, the
decoder gives that row's instruction, and it is a well-formed one. -/
def Obligations.OpcodeMapCoversEveryWordOnce : Prop :=
  ∀ w : Word, (decode w).mapRow ∈ opcodeMap ∧ (decode w).WellFormed ∧
    (∀ r ∈ opcodeMap, r.selects w = true ↔ r = (decode w).mapRow)

/-- R66: the illegal words are 0x8000 to 0x8FFF and 0xD000 to 0xDFFF (D7, log 2). -/
def Obligations.IllegalWordsAreTheTwoReservedRanges : Prop :=
  ∀ w : Word,
    (decode w = .reservedA ↔ 0x8000 ≤ w.toNat ∧ w.toNat ≤ 0x8FFF) ∧
    (decode w = .reservedB ↔ 0xD000 ≤ w.toNat ∧ w.toNat ≤ 0xDFFF)

/-- Words written out from the spec's patterns, one or more a family, decode to their instructions (logs 2, 4). -/
def Obligations.SampleWordsDecode : Prop :=
  decode 0x03FD = .br false false true 0x1FD ∧ decode 0x147E = .addImm 2 1 0b11110 ∧
  decode 0x105A = .addReg 0 1 2 ∧ decode 0x58EF = .andImm 4 3 15 ∧ decode 0x9280 = .not 1 2 ∧
  decode 0xCFFF = .jmp 7 ∧ decode 0x4802 = .jsr 2 ∧ decode 0x41C0 = .jsrr 7 ∧ decode 0xA1FB = .ldi 0 0x1FB ∧
  decode 0x671F = .ldr 3 4 31 ∧ decode 0xB60F = .sti 3 15 ∧ decode 0xFF25 = .halt ∧
  decode 0xF026 = .trapUndefined 0x26 ∧ decode 0x8FFF = .reservedA ∧ decode 0xDABC = .reservedB

/-- The parameters have the values that R5 fixes and the spec decides (R6; logs 2, 3, 4, 6, 13, 14). REG_RESET is open
and no statement rests on it (log 5). -/
def Obligations.ParametersHaveTheDecidedValues : Prop :=
  config.pcReset = 0x3000 ∧ config.memReset = 0 ∧ config.memWords = 65536 ∧ config.linkReg = 7 ∧ config.trapArgReg = 0 ∧
  [config.opBr, config.opAdd, config.opLd, config.opSt, config.opJsr, config.opAnd, config.opLdr, config.opStr,
    config.opResA, config.opNot, config.opLdi, config.opSti, config.opJmp, config.opResB, config.opLea, config.opTrap] =
    [0, 1, 2, 3, 4, 5, 6, 7, 8, 9, 10, 11, 12, 13, 14, 15] ∧
  config.posOpcode = 12 ∧ config.posTrapvect8 = 0 ∧
  [config.posDR, config.posSR1, config.posSR2, config.posImm5, config.posOffset6, config.posPCoffset9,
    config.posPCoffset11] = [9, 6, 0, 0, 0, 0, 0] ∧
  [config.posM, config.posL, config.posN, config.posZ, config.posP] = [5, 11, 11, 10, 9] ∧
  config.kbsrAddr = 0xFE00 ∧ config.kbdrAddr = 0xFE02 ∧ config.kbsrReadyPreservesLow = false ∧
  definedVectors = [0x20, 0x21, 0x22, 0x23, 0x24, 0x25] ∧ config.haltNotice = [0x48, 0x41, 0x4C, 0x54, 0x0A] ∧
  config.inPrompt.map BitVec.toNat = "Enter a character: ".toList.map Char.toNat

/-! ### A run without end -/

/-- R124, R126, R195 (d), U7: with no zero word but perhaps the status word, and a host that types at least one character
before each step, for ever, and none of them zero, an unfinished PUTS or PUTSP never ends and emits bytes for ever. The lap
as a step and the host's plan are the model's choices (logs 11, 9). -/
def Obligations.EndlessStringsNeverEnd : Prop :=
  ∀ (s : State) (a : Word), s.run = .running → (s.pending = some (.puts a) ∨ s.pending = some (.putsp a)) →
    (∀ b, b ≠ config.kbsrAddr → s.peek b ≠ 0) → (∀ c ∈ s.inQ, c ≠ 0) → s.host.forever ≠ [] →
    (∀ m ∈ s.host.once ++ s.host.forever, ∃ bytes, m = .append bytes ∧ bytes ≠ [] ∧ ∀ c ∈ bytes, c ≠ 0) →
    ∀ n, ∃ t, stepsFrom n s = .next t ∧ t.run = .running ∧ t.pending = s.pending ∧
      s.out.length + n * config.memWords ≤ t.out.length
end

