-- ==== Sys2Proof/Laws/Decode.lean ====
section
/-! SUPPORT. The decoder, opcode by opcode: what a word of each opcode decodes to (30_encoding.md R64). -/

namespace Sys2Proof

variable (w : Word)

/-! ### The fields at the positions the spec decides (R6, R61) -/

theorem opcodeOf_eq : opcodeOf w = w.extractLsb' 12 4 := rfl
theorem fieldDR_eq : fieldDR w = w.extractLsb' 9 3 := rfl
theorem fieldSR1_eq : fieldSR1 w = w.extractLsb' 6 3 := rfl
theorem fieldSR2_eq : fieldSR2 w = w.extractLsb' 0 3 := rfl
theorem fieldImm5_eq : fieldImm5 w = w.extractLsb' 0 5 := rfl
theorem fieldOffset6_eq : fieldOffset6 w = w.extractLsb' 0 6 := rfl
theorem fieldPCoffset9_eq : fieldPCoffset9 w = w.extractLsb' 0 9 := rfl
theorem fieldPCoffset11_eq : fieldPCoffset11 w = w.extractLsb' 0 11 := rfl
theorem fieldTrapvect8_eq : fieldTrapvect8 w = w.extractLsb' 0 8 := rfl
theorem fieldM_eq : fieldM w = w.getLsbD 5 := rfl
theorem fieldL_eq : fieldL w = w.getLsbD 11 := rfl
theorem fieldN_eq : fieldN w = w.getLsbD 11 := rfl
theorem fieldZ_eq : fieldZ w = w.getLsbD 10 := rfl
theorem fieldP_eq : fieldP w = w.getLsbD 9 := rfl

/-! ### What a word of each opcode is -/

theorem decode_br (h : opcodeOf w = config.opBr) :
    decode w = .br (fieldN w) (fieldZ w) (fieldP w) (fieldPCoffset9 w) := by simp [decode, h]
theorem decode_addReg (h : opcodeOf w = config.opAdd) (hm : fieldM w = false) :
    decode w = .addReg (fieldDR w) (fieldSR1 w) (fieldSR2 w) := by simp [decode, h, hm, config]
theorem decode_addImm (h : opcodeOf w = config.opAdd) (hm : fieldM w = true) :
    decode w = .addImm (fieldDR w) (fieldSR1 w) (fieldImm5 w) := by simp [decode, h, hm, config]
theorem decode_ld (h : opcodeOf w = config.opLd) : decode w = .ld (fieldDR w) (fieldPCoffset9 w) := by
  simp [decode, h, config]
theorem decode_st (h : opcodeOf w = config.opSt) : decode w = .st (fieldDR w) (fieldPCoffset9 w) := by
  simp [decode, h, config]
theorem decode_jsr (h : opcodeOf w = config.opJsr) (hl : fieldL w = true) :
    decode w = .jsr (fieldPCoffset11 w) := by simp [decode, h, hl, config]
theorem decode_jsrr (h : opcodeOf w = config.opJsr) (hl : fieldL w = false) : decode w = .jsrr (fieldSR1 w) := by
  simp [decode, h, hl, config]
theorem decode_andReg (h : opcodeOf w = config.opAnd) (hm : fieldM w = false) :
    decode w = .andReg (fieldDR w) (fieldSR1 w) (fieldSR2 w) := by simp [decode, h, hm, config]
theorem decode_andImm (h : opcodeOf w = config.opAnd) (hm : fieldM w = true) :
    decode w = .andImm (fieldDR w) (fieldSR1 w) (fieldImm5 w) := by simp [decode, h, hm, config]
theorem decode_ldr (h : opcodeOf w = config.opLdr) : decode w = .ldr (fieldDR w) (fieldSR1 w) (fieldOffset6 w) := by
  simp [decode, h, config]
theorem decode_str (h : opcodeOf w = config.opStr) : decode w = .str (fieldDR w) (fieldSR1 w) (fieldOffset6 w) := by
  simp [decode, h, config]
theorem decode_reservedA (h : opcodeOf w = config.opResA) : decode w = .reservedA := by simp [decode, h, config]
theorem decode_not (h : opcodeOf w = config.opNot) : decode w = .not (fieldDR w) (fieldSR1 w) := by
  simp [decode, h, config]
theorem decode_ldi (h : opcodeOf w = config.opLdi) : decode w = .ldi (fieldDR w) (fieldPCoffset9 w) := by
  simp [decode, h, config]
theorem decode_sti (h : opcodeOf w = config.opSti) : decode w = .sti (fieldDR w) (fieldPCoffset9 w) := by
  simp [decode, h, config]
theorem decode_jmp (h : opcodeOf w = config.opJmp) : decode w = .jmp (fieldSR1 w) := by simp [decode, h, config]
theorem decode_reservedB (h : opcodeOf w = config.opResB) : decode w = .reservedB := by simp [decode, h, config]
theorem decode_lea (h : opcodeOf w = config.opLea) : decode w = .lea (fieldDR w) (fieldPCoffset9 w) := by
  simp [decode, h, config]
theorem decode_trap (h : opcodeOf w = config.opTrap) : decode w = refineTrap (fieldTrapvect8 w) := by
  simp [decode, h, config]

/-- The seven rows that refine TRAP: a property that each has at its vectors holds of every TRAP word's row. -/
theorem refineTrap_cases (P : Byte → Instr → Prop) (getc : P config.tvGetc .getc) (out : P config.tvOut .out)
    (puts : P config.tvPuts .puts) (in_ : P config.tvIn .in_) (putsp : P config.tvPutsp .putsp)
    (halt : P config.tvHalt .halt) (undef : ∀ v, v ∉ definedVectors → P v (.trapUndefined v)) (v : Byte) :
    P v (refineTrap v) := by
  unfold refineTrap
  split
  · next h => exact h ▸ getc
  split
  · next h => exact h ▸ out
  split
  · next h => exact h ▸ puts
  split
  · next h => exact h ▸ in_
  split
  · next h => exact h ▸ putsp
  split
  · next h => exact h ▸ halt
  next h1 h2 h3 h4 h5 h6 => exact undef v (by simp [definedVectors, h1, h2, h3, h4, h5, h6])

/-- Every opcode is one of the sixteen: a property that holds of words of each opcode holds of every word. -/
theorem opcode_cases (P : Opcode → Prop) (h : ∀ k : Fin 16, P (BitVec.ofFin k)) (op : Opcode) : P op := h op.toFin

end Sys2Proof
end

