-- ==== Sys2Proof/Laws/State.lean ====
section
/-! SUPPORT. What each update of the state does to each field: one lemma a field and update, true by rfl, so that no
later proof unfolds a record update. -/

namespace Sys2Proof.Machine

variable (s : State) (r r' : Reg) (a b v : Word) (f : CondFlag) (q : RunState) (p : Option Routine) (bytes : List Byte)

@[simp] theorem setX_pc : (s.setX r v).pc = s.pc := rfl
@[simp] theorem setX_cc : (s.setX r v).cc = s.cc := rfl
@[simp] theorem setX_run : (s.setX r v).run = s.run := rfl
@[simp] theorem setX_mem : (s.setX r v).mem = s.mem := rfl
@[simp] theorem setX_out : (s.setX r v).out = s.out := rfl
@[simp] theorem setX_pending : (s.setX r v).pending = s.pending := rfl
@[simp] theorem setX_inQ : (s.setX r v).inQ = s.inQ := rfl
@[simp] theorem setX_host : (s.setX r v).host = s.host := rfl
@[simp] theorem setX_peek : (s.setX r v).peek a = s.peek a := rfl

@[simp] theorem setX_x_same : (s.setX r v).x r = v := by
  simp [State.setX, State.x, Vector.get_eq_getElem]

@[simp] theorem setX_x_other (h : r' ≠ r) : (s.setX r v).x r' = s.x r' := by
  have h' : r.toNat ≠ r'.toNat := fun e => h (BitVec.eq_of_toNat_eq e.symm)
  simp [State.setX, State.x, Vector.get_eq_getElem, h']

theorem setX_x : (s.setX r v).x r' = if r' = r then v else s.x r' := by
  by_cases h : r' = r
  · subst h; simp
  · simp [h]

@[simp] theorem setPc_regs : (s.setPc v).regs = s.regs := rfl
@[simp] theorem setPc_pc : (s.setPc v).pc = v := rfl
@[simp] theorem setPc_cc : (s.setPc v).cc = s.cc := rfl
@[simp] theorem setPc_run : (s.setPc v).run = s.run := rfl
@[simp] theorem setPc_mem : (s.setPc v).mem = s.mem := rfl
@[simp] theorem setPc_out : (s.setPc v).out = s.out := rfl
@[simp] theorem setPc_pending : (s.setPc v).pending = s.pending := rfl
@[simp] theorem setPc_inQ : (s.setPc v).inQ = s.inQ := rfl
@[simp] theorem setPc_host : (s.setPc v).host = s.host := rfl
@[simp] theorem setPc_x : (s.setPc v).x r = s.x r := rfl
@[simp] theorem setPc_peek : (s.setPc v).peek a = s.peek a := rfl

@[simp] theorem setCc_regs : (s.setCc f).regs = s.regs := rfl
@[simp] theorem setCc_pc : (s.setCc f).pc = s.pc := rfl
@[simp] theorem setCc_cc : (s.setCc f).cc = f := rfl
@[simp] theorem setCc_run : (s.setCc f).run = s.run := rfl
@[simp] theorem setCc_mem : (s.setCc f).mem = s.mem := rfl
@[simp] theorem setCc_out : (s.setCc f).out = s.out := rfl
@[simp] theorem setCc_pending : (s.setCc f).pending = s.pending := rfl
@[simp] theorem setCc_inQ : (s.setCc f).inQ = s.inQ := rfl
@[simp] theorem setCc_host : (s.setCc f).host = s.host := rfl
@[simp] theorem setCc_x : (s.setCc f).x r = s.x r := rfl
@[simp] theorem setCc_peek : (s.setCc f).peek a = s.peek a := rfl

@[simp] theorem setRun_regs : (s.setRun q).regs = s.regs := rfl
@[simp] theorem setRun_pc : (s.setRun q).pc = s.pc := rfl
@[simp] theorem setRun_cc : (s.setRun q).cc = s.cc := rfl
@[simp] theorem setRun_run : (s.setRun q).run = q := rfl
@[simp] theorem setRun_mem : (s.setRun q).mem = s.mem := rfl
@[simp] theorem setRun_out : (s.setRun q).out = s.out := rfl
@[simp] theorem setRun_pending : (s.setRun q).pending = s.pending := rfl
@[simp] theorem setRun_inQ : (s.setRun q).inQ = s.inQ := rfl
@[simp] theorem setRun_host : (s.setRun q).host = s.host := rfl
@[simp] theorem setRun_x : (s.setRun q).x r = s.x r := rfl
@[simp] theorem setRun_peek : (s.setRun q).peek a = s.peek a := rfl

@[simp] theorem setPending_regs : (s.setPending p).regs = s.regs := rfl
@[simp] theorem setPending_pc : (s.setPending p).pc = s.pc := rfl
@[simp] theorem setPending_cc : (s.setPending p).cc = s.cc := rfl
@[simp] theorem setPending_run : (s.setPending p).run = s.run := rfl
@[simp] theorem setPending_mem : (s.setPending p).mem = s.mem := rfl
@[simp] theorem setPending_out : (s.setPending p).out = s.out := rfl
@[simp] theorem setPending_pending : (s.setPending p).pending = p := rfl
@[simp] theorem setPending_inQ : (s.setPending p).inQ = s.inQ := rfl
@[simp] theorem setPending_host : (s.setPending p).host = s.host := rfl
@[simp] theorem setPending_x : (s.setPending p).x r = s.x r := rfl
@[simp] theorem setPending_peek : (s.setPending p).peek a = s.peek a := rfl

@[simp] theorem emit_regs : (s.emit bytes).regs = s.regs := rfl
@[simp] theorem emit_pc : (s.emit bytes).pc = s.pc := rfl
@[simp] theorem emit_cc : (s.emit bytes).cc = s.cc := rfl
@[simp] theorem emit_run : (s.emit bytes).run = s.run := rfl
@[simp] theorem emit_mem : (s.emit bytes).mem = s.mem := rfl
@[simp] theorem emit_out : (s.emit bytes).out = s.out ++ bytes := rfl
@[simp] theorem emit_pending : (s.emit bytes).pending = s.pending := rfl
@[simp] theorem emit_inQ : (s.emit bytes).inQ = s.inQ := rfl
@[simp] theorem emit_host : (s.emit bytes).host = s.host := rfl
@[simp] theorem emit_x : (s.emit bytes).x r = s.x r := rfl
@[simp] theorem emit_peek : (s.emit bytes).peek a = s.peek a := rfl

@[simp] theorem poke_regs : (s.poke a v).regs = s.regs := rfl
@[simp] theorem poke_pc : (s.poke a v).pc = s.pc := rfl
@[simp] theorem poke_cc : (s.poke a v).cc = s.cc := rfl
@[simp] theorem poke_run : (s.poke a v).run = s.run := rfl
@[simp] theorem poke_mem : (s.poke a v).mem = s.mem.write a.toNat v := rfl
@[simp] theorem poke_out : (s.poke a v).out = s.out := rfl
@[simp] theorem poke_pending : (s.poke a v).pending = s.pending := rfl
@[simp] theorem poke_inQ : (s.poke a v).inQ = s.inQ := rfl
@[simp] theorem poke_host : (s.poke a v).host = s.host := rfl
@[simp] theorem poke_x : (s.poke a v).x r = s.x r := rfl

end Sys2Proof.Machine
end

