-- ==== Sys2Proof/Laws/Memory.lean ====
section
/-! SUPPORT. The memory array: read after write, and the canonical form that every memory operation keeps. -/

namespace Sys2Proof.Machine

/-! ### Read after erase, insert and write -/

theorem Memory.read_erase_same (m : Memory) (a : Nat) : (m.erase a).read a = config.memReset := by
  induction m with
  | nil => rfl
  | cons c rest ih =>
    obtain ⟨b, w⟩ := c
    simp only [Memory.erase, List.filter_cons] at ih ⊢
    by_cases h : b = a
    · simpa [h] using ih
    · simpa [h, Memory.read, Ne.symm h] using ih

theorem Memory.read_erase_other (m : Memory) (a b : Nat) (h : b ≠ a) : (m.erase a).read b = m.read b := by
  induction m with
  | nil => rfl
  | cons c rest ih =>
    obtain ⟨d, w⟩ := c
    simp only [Memory.erase, List.filter_cons] at ih ⊢
    by_cases hd : d = a
    · subst hd; simpa [Memory.read, h] using ih
    · simp [hd, Memory.read, ih]

theorem Memory.read_insert_other (m : Memory) (a b : Nat) (v : Word) (h : b ≠ a) :
    (m.insert a v).read b = m.read b := by
  induction m with
  | nil => simp [Memory.insert, Memory.read, h]
  | cons c rest ih =>
    obtain ⟨d, w⟩ := c
    simp only [Memory.insert]
    split <;> simp [Memory.read, h, ih]

theorem Memory.read_insert_same (m : Memory) (a : Nat) (v : Word) (h : ∀ c ∈ m, c.1 ≠ a) :
    (m.insert a v).read a = v := by
  induction m with
  | nil => simp [Memory.insert, Memory.read]
  | cons c rest ih =>
    obtain ⟨d, w⟩ := c
    have hd : a ≠ d := fun e => h (d, w) (by simp) e.symm
    simp only [Memory.insert]
    split
    · simp [Memory.read]
    · simpa [Memory.read, hd] using ih (fun c hc => h c (List.mem_cons_of_mem _ hc))

theorem Memory.ne_of_mem_erase (m : Memory) (a : Nat) : ∀ c ∈ m.erase a, c.1 ≠ a := by
  intro c hc
  simpa using (List.mem_filter.mp hc).2

@[simp] theorem Memory.read_write_same (m : Memory) (a : Nat) (v : Word) : (m.write a v).read a = v := by
  unfold Memory.write
  split
  · rename_i h; rw [h, Memory.read_erase_same]
  · exact Memory.read_insert_same _ _ _ (Memory.ne_of_mem_erase m a)

theorem Memory.read_write_other (m : Memory) (a b : Nat) (v : Word) (h : b ≠ a) :
    (m.write a v).read b = m.read b := by
  unfold Memory.write
  split
  · exact Memory.read_erase_other m a b h
  · rw [Memory.read_insert_other _ _ _ _ h, Memory.read_erase_other m a b h]

/-! ### The canonical form -/

theorem Memory.nil_wf : Memory.wf [] := by simp [Memory.wf]

theorem Memory.erase_wf (m : Memory) (a : Nat) (h : m.wf) : (m.erase a).wf :=
  ⟨h.1.filter _, fun c hc => h.2 c (List.mem_filter.mp hc).1⟩

theorem Memory.mem_insert (m : Memory) (a : Nat) (v : Word) (c : Cell) (h : c ∈ m.insert a v) :
    c = (a, v) ∨ c ∈ m := by
  induction m with
  | nil => simpa [Memory.insert] using h
  | cons d rest ih =>
    obtain ⟨b, w⟩ := d
    simp only [Memory.insert] at h
    split at h
    · exact List.mem_cons.mp h
    · rcases List.mem_cons.mp h with h | h
      · exact Or.inr (by simp [h])
      · exact (ih h).imp_right (List.mem_cons_of_mem _)

theorem Memory.insert_wf (m : Memory) (a : Nat) (v : Word) (ha : a < config.memWords) (hv : v ≠ config.memReset)
    (hne : ∀ c ∈ m, c.1 ≠ a) (h : m.wf) : (m.insert a v).wf := by
  refine ⟨?_, fun c hc => ?_⟩
  · have hs := h.1
    clear h
    induction m with
    | nil => simp [Memory.insert]
    | cons d rest ih =>
      obtain ⟨b, w⟩ := d
      obtain ⟨h1, h2⟩ := List.pairwise_cons.mp hs
      have hb : b ≠ a := hne (b, w) (by simp)
      simp only [Memory.insert]
      split
      · rename_i hab
        refine List.pairwise_cons.mpr ⟨fun c hc => ?_, hs⟩
        rcases List.mem_cons.mp hc with rfl | hc
        · exact hab
        · exact Nat.lt_trans hab (h1 c hc)
      · refine List.pairwise_cons.mpr ⟨fun c hc => ?_, ih (fun c hc => hne c (List.mem_cons_of_mem _ hc)) h2⟩
        rcases Memory.mem_insert rest a v c hc with rfl | hc
        · simp only; omega
        · exact h1 c hc
  · rcases Memory.mem_insert m a v c hc with rfl | hc
    · exact ⟨ha, hv⟩
    · exact h.2 c hc

/-- A write inside the address space keeps the canonical form. -/
theorem Memory.write_wf (m : Memory) (a : Nat) (v : Word) (ha : a < config.memWords) (h : m.wf) :
    (m.write a v).wf := by
  unfold Memory.write
  split
  · exact Memory.erase_wf m a h
  · rename_i hv
    exact Memory.insert_wf _ _ _ ha hv (Memory.ne_of_mem_erase m a) (Memory.erase_wf m a h)

theorem word_lt_memWords (a : Word) : a.toNat < config.memWords := a.isLt

/-! ### The raw array of a state -/

@[simp] theorem poke_peek_same (s : State) (a v : Word) : (s.poke a v).peek a = v :=
  Memory.read_write_same _ _ _

@[simp] theorem poke_peek_other (s : State) (a b v : Word) (h : b ≠ a) : (s.poke a v).peek b = s.peek b :=
  Memory.read_write_other _ _ _ _ (fun e => h (BitVec.eq_of_toNat_eq e))

theorem poke_peek (s : State) (a b v : Word) : (s.poke a v).peek b = if b = a then v else s.peek b := by
  by_cases h : b = a
  · subst h; simp
  · simp [h]

theorem poke_wf (s : State) (a v : Word) (h : s.mem.wf) : (s.poke a v).mem.wf :=
  Memory.write_wf _ _ _ (word_lt_memWords a) h

end Sys2Proof.Machine
end

