-- ==== Sys2Proof/Laws/Ops.lean ====
section
/-! SUPPORT. For each shared operation, one lemma that says once everything it can do; later proofs cite it and do not
unfold the operation. -/

namespace Sys2Proof.Machine

/-! ### Flagged register writes -/

@[simp] theorem writeResult_cc (r : Reg) (v : Word) (s : State) : (writeResult r v s).cc = classify v := by
  simp [writeResult, updateFlags]

@[simp] theorem writeResult_x_same (r : Reg) (v : Word) (s : State) : (writeResult r v s).x r = v := by
  simp [writeResult, updateFlags]

@[simp] theorem writeResult_x_other (r r' : Reg) (v : Word) (s : State) (h : r' ≠ r) :
    (writeResult r v s).x r' = s.x r' := by
  simp [writeResult, updateFlags, h]

@[simp] theorem writeResult_pc (r : Reg) (v : Word) (s : State) : (writeResult r v s).pc = s.pc := rfl
@[simp] theorem writeResult_run (r : Reg) (v : Word) (s : State) : (writeResult r v s).run = s.run := rfl
@[simp] theorem writeResult_mem (r : Reg) (v : Word) (s : State) : (writeResult r v s).mem = s.mem := rfl
@[simp] theorem writeResult_out (r : Reg) (v : Word) (s : State) : (writeResult r v s).out = s.out := rfl
@[simp] theorem writeResult_pending (r : Reg) (v : Word) (s : State) : (writeResult r v s).pending = s.pending := rfl
@[simp] theorem writeResult_inQ (r : Reg) (v : Word) (s : State) : (writeResult r v s).inQ = s.inQ := rfl
@[simp] theorem writeResult_host (r : Reg) (v : Word) (s : State) : (writeResult r v s).host = s.host := rfl
@[simp] theorem writeResult_peek (r : Reg) (v a : Word) (s : State) : (writeResult r v s).peek a = s.peek a := rfl

/-! ### The link register -/

@[simp] theorem saveLink_x_link (s : State) : (saveLink s).x config.linkReg = s.pc := by simp [saveLink]
@[simp] theorem saveLink_x_other (s : State) (r : Reg) (h : r ≠ config.linkReg) : (saveLink s).x r = s.x r := by
  simp [saveLink, h]
@[simp] theorem saveLink_x_arg (s : State) : (saveLink s).x config.trapArgReg = s.x config.trapArgReg :=
  saveLink_x_other s _ (by decide)
/-- The link register by its number, as the rules write it: `x[7]`. -/
@[simp] theorem saveLink_x_seven (s : State) : (saveLink s).x 7#3 = s.pc := saveLink_x_link s
@[simp] theorem saveLink_pc (s : State) : (saveLink s).pc = s.pc := rfl
@[simp] theorem saveLink_cc (s : State) : (saveLink s).cc = s.cc := rfl
@[simp] theorem saveLink_run (s : State) : (saveLink s).run = s.run := rfl
@[simp] theorem saveLink_mem (s : State) : (saveLink s).mem = s.mem := rfl
@[simp] theorem saveLink_out (s : State) : (saveLink s).out = s.out := rfl
@[simp] theorem saveLink_pending (s : State) : (saveLink s).pending = s.pending := rfl
@[simp] theorem saveLink_inQ (s : State) : (saveLink s).inQ = s.inQ := rfl
@[simp] theorem saveLink_host (s : State) : (saveLink s).host = s.host := rfl
@[simp] theorem saveLink_peek (s : State) (a : Word) : (saveLink s).peek a = s.peek a := rfl

/-! ### The bus: what a read can do -/

@[simp] theorem memRead_plain (a : Word) (s : State) (h : a ≠ config.kbsrAddr) : memRead a s = (s.peek a, s) := by
  simp [memRead, h]

theorem pollStatus_empty (s : State) (h : s.inQ = []) : pollStatus s = s.poke config.kbsrAddr 0 := by
  simp [pollStatus, inputTake, h]

theorem pollStatus_ready (s : State) (b : Byte) (rest : List Byte) (h : s.inQ = b :: rest) :
    pollStatus s =
      (({ s with inQ := rest } : State).poke config.kbsrAddr
        (readyStatus config.kbsrReadyPreservesLow (s.peek config.kbsrAddr))).poke config.kbdrAddr (zext16 b) := by
  simp [pollStatus, inputTake, h, State.peek]

/-- A bus read changes memory and the input queue only: memory at the two mapped words, by plain writes of the array;
the queue by losing at most its head. -/
theorem memRead_cases (a : Word) (s : State) :
    (memRead a s).2 = s ∨ (memRead a s).2 = s.poke config.kbsrAddr 0 ∨
      ∃ b rest v, s.inQ = b :: rest ∧
        (memRead a s).2 = (({ s with inQ := rest } : State).poke config.kbsrAddr v).poke config.kbdrAddr (zext16 b) := by
  unfold memRead
  split
  · cases h : s.inQ with
    | nil => exact Or.inr (Or.inl (pollStatus_empty s h))
    | cons b rest => exact Or.inr (Or.inr ⟨b, rest, _, rfl, pollStatus_ready s b rest h⟩)
  · exact Or.inl rfl

@[simp] theorem memRead_regs (a : Word) (s : State) : (memRead a s).2.regs = s.regs := by
  rcases memRead_cases a s with h | h | ⟨b, rest, v, _, h⟩ <;> rw [h] <;> rfl
@[simp] theorem memRead_x (a : Word) (s : State) (r : Reg) : (memRead a s).2.x r = s.x r := by
  simp [State.x]
@[simp] theorem memRead_pc (a : Word) (s : State) : (memRead a s).2.pc = s.pc := by
  rcases memRead_cases a s with h | h | ⟨b, rest, v, _, h⟩ <;> rw [h] <;> rfl
@[simp] theorem memRead_cc (a : Word) (s : State) : (memRead a s).2.cc = s.cc := by
  rcases memRead_cases a s with h | h | ⟨b, rest, v, _, h⟩ <;> rw [h] <;> rfl
@[simp] theorem memRead_run (a : Word) (s : State) : (memRead a s).2.run = s.run := by
  rcases memRead_cases a s with h | h | ⟨b, rest, v, _, h⟩ <;> rw [h] <;> rfl
@[simp] theorem memRead_out (a : Word) (s : State) : (memRead a s).2.out = s.out := by
  rcases memRead_cases a s with h | h | ⟨b, rest, v, _, h⟩ <;> rw [h] <;> rfl
@[simp] theorem memRead_pending (a : Word) (s : State) : (memRead a s).2.pending = s.pending := by
  rcases memRead_cases a s with h | h | ⟨b, rest, v, _, h⟩ <;> rw [h] <;> rfl
@[simp] theorem memRead_host (a : Word) (s : State) : (memRead a s).2.host = s.host := by
  rcases memRead_cases a s with h | h | ⟨b, rest, v, _, h⟩ <;> rw [h] <;> rfl

/-- A bus read changes no word outside the two mapped ones. -/
theorem memRead_peek_other (a b : Word) (s : State) (h1 : b ≠ config.kbsrAddr) (h2 : b ≠ config.kbdrAddr) :
    (memRead a s).2.peek b = s.peek b := by
  rcases memRead_cases a s with h | h | ⟨c, rest, v, _, h⟩ <;> rw [h]
  · exact poke_peek_other _ _ _ _ h1
  · rw [poke_peek_other _ _ _ _ h2, poke_peek_other _ _ _ _ h1]; rfl

/-- A bus read keeps the canonical form of memory. -/
theorem memRead_wf (a : Word) (s : State) (h : s.mem.wf) : (memRead a s).2.mem.wf := by
  rcases memRead_cases a s with e | e | ⟨c, rest, v, _, e⟩ <;> rw [e]
  · exact h
  · exact poke_wf _ _ _ h
  · exact poke_wf _ _ _ (poke_wf _ _ _ h)

/-- A bus read takes at most the head of the input queue. -/
theorem memRead_inQ (a : Word) (s : State) : ∃ taken, s.inQ = taken ++ (memRead a s).2.inQ := by
  rcases memRead_cases a s with e | e | ⟨c, rest, v, hq, e⟩ <;> rw [e]
  · exact ⟨[], rfl⟩
  · exact ⟨[], rfl⟩
  · exact ⟨[c], hq⟩

/-- A bus write keeps the canonical form of memory. -/
theorem memWrite_wf (a v : Word) (s : State) (h : s.mem.wf) : (memWrite a v s).mem.wf := poke_wf _ _ _ h

/-! ### The blocking reads -/

theorem getcRead_wait (s : State) (h : s.inQ = []) : getcRead s = s.setPending (some .getc) := by
  simp [getcRead, inputTake, h]

theorem getcRead_take (s : State) (b : Byte) (rest : List Byte) (h : s.inQ = b :: rest) :
    getcRead s = deliverChar b (({ s with inQ := rest } : State).setPending none) := by
  simp [getcRead, inputTake, h]

theorem inRead_wait (s : State) (h : s.inQ = []) : inRead s = s.setPending (some .in_) := by
  simp [inRead, inputTake, h]

theorem inRead_take (s : State) (b : Byte) (rest : List Byte) (h : s.inQ = b :: rest) :
    inRead s = deliverChar b ((({ s with inQ := rest } : State).setPending none).emit [b]) := by
  simp [inRead, inputTake, h]

/-! ### The string loop -/

@[simp] theorem stringLoop_zero (chars : Word → List Byte) (a : Word) (s : State) :
    stringLoop chars 0 a s = (some a, s) := rfl

theorem stringLoop_stop (chars : Word → List Byte) (n : Nat) (a : Word) (s : State) (h : (memRead a s).1 = 0) :
    stringLoop chars (n + 1) a s = (none, (memRead a s).2) := by
  simp [stringLoop, h]

theorem stringLoop_more (chars : Word → List Byte) (n : Nat) (a : Word) (s : State) (h : (memRead a s).1 ≠ 0) :
    stringLoop chars (n + 1) a s =
      stringLoop chars n (a + 1) ((memRead a s).2.emit (chars (memRead a s).1)) := by
  simp only [stringLoop, if_neg h]

/-- What holds at the start and is kept by bus reads and output holds when the loop stops. -/
theorem stringLoop_keeps (P : State → Prop) (chars : Word → List Byte)
    (hread : ∀ a s, P s → P (memRead a s).2) (hemit : ∀ bs s, P s → P (s.emit bs)) (n : Nat) (a : Word) (s : State)
    (h : P s) : P (stringLoop chars n a s).2 := by
  induction n generalizing a s with
  | zero => exact h
  | succ n ih =>
    by_cases hz : (memRead a s).1 = 0
    · rw [stringLoop_stop _ _ _ _ hz]; exact hread a s h
    · rw [stringLoop_more _ _ _ _ hz]; exact ih _ _ (hemit _ _ (hread a s h))

/-- A loop that has not ended after `n` reads stands `n` words further on. -/
theorem stringLoop_address (chars : Word → List Byte) (n : Nat) (a a' : Word) (s : State)
    (h : (stringLoop chars n a s).1 = some a') : a' = a + BitVec.ofNat 16 n := by
  induction n generalizing a s with
  | zero => simpa [eq_comm] using h
  | succ n ih =>
    by_cases hz : (memRead a s).1 = 0
    · rw [stringLoop_stop _ _ _ _ hz] at h; cases h
    · rw [stringLoop_more _ _ _ _ hz] at h
      rw [ih _ _ h]
      apply BitVec.eq_of_toNat_eq
      have h1 : (1 : Word).toNat = 1 := rfl
      simp only [BitVec.toNat_add, BitVec.toNat_ofNat, h1]
      omega

/-! ### The host's turn: what it can do -/

@[simp] theorem nextMove_idle : nextMove HostPlan.idle = none := rfl
@[simp] theorem nextMove_once (m : HostMove) (rest again : List HostMove) :
    nextMove ⟨m :: rest, again⟩ = some (m, ⟨rest, again⟩) := rfl
@[simp] theorem nextMove_forever (m : HostMove) (rest : List HostMove) :
    nextMove ⟨[], m :: rest⟩ = some (m, ⟨rest, m :: rest⟩) := rfl

theorem hostTurn_cases (s t : State) (h : hostTurn s = some t) :
    t = s ∨ ∃ bytes plan, nextMove s.host = some (.append bytes, plan) ∧
      t = { s with inQ := s.inQ ++ bytes, host := plan } := by
  unfold hostTurn at h
  split at h
  · exact Or.inl (Option.some.inj h).symm
  · rename_i bytes rest hh
    exact Or.inr ⟨bytes, rest, hh, (Option.some.inj h).symm⟩
  · split at h
    · cases h
    · exact Or.inl (Option.some.inj h).symm

end Sys2Proof.Machine
end

