-- ==== Sys2Proof/Laws/PerInstr.lean ====
section
/-! SUPPORT. A law of every instruction as syntax, one lemma a constructor: the word the encoder writes selects the
instruction's own row of the opcode map (30_encoding.md R64). -/

namespace Sys2Proof.Laws.FitsRow

/-- The encoded instruction has its row's match bits under its row's mask. -/
def Statement (i : Instr) : Prop := i.mapRow.selects (encode i) = true

/-- A word selects a row when each of its bits does. -/
theorem selects_of_bits {r : OpcodeRow} {w : Word}
    (h : ∀ k, k < 16 → (w.getLsbD k && r.mask.getLsbD k) = r.bits.getLsbD k) : r.selects w = true := by
  have e : w &&& r.mask = r.bits := BitVec.eq_of_getLsbD_eq fun k hk => by simpa using h k hk
  simp [OpcodeRow.selects, e]

theorem br (n : Bool) (z : Bool) (p : Bool) (off : BitVec 9) : Statement (.br n z p off) := by
  apply selects_of_bits
  intro k hk
  interval_cases k <;> simp [encode, placeOp, placePCoffset9, place, placeBit, config, Instr.mapRow]
theorem addReg (dr : Reg) (sr1 : Reg) (sr2 : Reg) : Statement (.addReg dr sr1 sr2) := by
  apply selects_of_bits
  intro k hk
  interval_cases k <;> simp [encode, encodeRR, placeOp, placeDR, placeSR1, place, placeBit, config, Instr.mapRow]
theorem addImm (dr : Reg) (sr1 : Reg) (imm : BitVec 5) : Statement (.addImm dr sr1 imm) := by
  apply selects_of_bits
  intro k hk
  interval_cases k <;> simp [encode, encodeRI, placeOp, placeDR, placeSR1, place, placeBit, config, Instr.mapRow]
theorem ld (dr : Reg) (off : BitVec 9) : Statement (.ld dr off) := by
  apply selects_of_bits
  intro k hk
  interval_cases k <;> simp [encode, encodePcRel, placeOp, placeDR, placePCoffset9, place, config, Instr.mapRow]
theorem st (sr : Reg) (off : BitVec 9) : Statement (.st sr off) := by
  apply selects_of_bits
  intro k hk
  interval_cases k <;> simp [encode, encodePcRel, placeOp, placeDR, placePCoffset9, place, config, Instr.mapRow]
theorem jsr (off : BitVec 11) : Statement (.jsr off) := by
  apply selects_of_bits
  intro k hk
  interval_cases k <;> simp [encode, placeOp, place, placeBit, config, Instr.mapRow]
theorem jsrr (base : Reg) : Statement (.jsrr base) := by
  apply selects_of_bits
  intro k hk
  interval_cases k <;> simp [encode, placeOp, placeSR1, place, placeBit, config, Instr.mapRow]
theorem andReg (dr : Reg) (sr1 : Reg) (sr2 : Reg) : Statement (.andReg dr sr1 sr2) := by
  apply selects_of_bits
  intro k hk
  interval_cases k <;> simp [encode, encodeRR, placeOp, placeDR, placeSR1, place, placeBit, config, Instr.mapRow]
theorem andImm (dr : Reg) (sr1 : Reg) (imm : BitVec 5) : Statement (.andImm dr sr1 imm) := by
  apply selects_of_bits
  intro k hk
  interval_cases k <;> simp [encode, encodeRI, placeOp, placeDR, placeSR1, place, placeBit, config, Instr.mapRow]
theorem ldr (dr : Reg) (base : Reg) (off : BitVec 6) : Statement (.ldr dr base off) := by
  apply selects_of_bits
  intro k hk
  interval_cases k <;> simp [encode, encodeBaseOff, placeOp, placeDR, placeSR1, place, config, Instr.mapRow]
theorem str (sr : Reg) (base : Reg) (off : BitVec 6) : Statement (.str sr base off) := by
  apply selects_of_bits
  intro k hk
  interval_cases k <;> simp [encode, encodeBaseOff, placeOp, placeDR, placeSR1, place, config, Instr.mapRow]
theorem reservedA : Statement .reservedA := rfl
theorem not (dr : Reg) (sr : Reg) : Statement (.not dr sr) := by
  apply selects_of_bits
  intro k hk
  interval_cases k <;> simp [encode, placeOp, placeDR, placeSR1, place, config, Instr.mapRow]
theorem ldi (dr : Reg) (off : BitVec 9) : Statement (.ldi dr off) := by
  apply selects_of_bits
  intro k hk
  interval_cases k <;> simp [encode, encodePcRel, placeOp, placeDR, placePCoffset9, place, config, Instr.mapRow]
theorem sti (sr : Reg) (off : BitVec 9) : Statement (.sti sr off) := by
  apply selects_of_bits
  intro k hk
  interval_cases k <;> simp [encode, encodePcRel, placeOp, placeDR, placePCoffset9, place, config, Instr.mapRow]
theorem jmp (base : Reg) : Statement (.jmp base) := by
  apply selects_of_bits
  intro k hk
  interval_cases k <;> simp [encode, placeOp, placeSR1, place, config, Instr.mapRow]
theorem reservedB : Statement .reservedB := rfl
theorem lea (dr : Reg) (off : BitVec 9) : Statement (.lea dr off) := by
  apply selects_of_bits
  intro k hk
  interval_cases k <;> simp [encode, encodePcRel, placeOp, placeDR, placePCoffset9, place, config, Instr.mapRow]
theorem trap (vect : Byte) : Statement (.trap vect) := by
  apply selects_of_bits
  intro k hk
  interval_cases k <;> simp [encode, encodeTrap, placeOp, place, config, Instr.mapRow]
theorem getc : Statement .getc := rfl
theorem out : Statement .out := rfl
theorem puts : Statement .puts := rfl
theorem in_ : Statement .in_ := rfl
theorem putsp : Statement .putsp := rfl
theorem halt : Statement .halt := rfl
theorem trapUndefined (vect : Byte) : Statement (.trapUndefined vect) := by
  apply selects_of_bits
  intro k hk
  interval_cases k <;> simp [encode, encodeTrap, placeOp, place, config, Instr.mapRow]

end Sys2Proof.Laws.FitsRow
end

