-- ==== Sys2Proof/Laws/Strings.lean ====
section
/-! SUPPORT. The string loop of PUTS and PUTSP and its relations: what a lap of it does, and when it cannot end
(70_reset_and_hazards.md R195 d). -/

namespace Sys2Proof.Machine

/-! ### The loop and its relations -/

theorem word_step (a : Word) (n : Nat) : a + 1 + BitVec.ofNat 16 n = a + BitVec.ofNat 16 (n + 1) := by
  apply BitVec.eq_of_toNat_eq
  have h1 : (1 : Word).toNat = 1 := rfl
  simp only [BitVec.toNat_add, BitVec.toNat_ofNat, h1]
  omega

/-- A lap comes back to the address it started from. -/
theorem lap_address (a : Word) : a + BitVec.ofNat 16 config.memWords = a := by
  have e : BitVec.ofNat 16 config.memWords = 0 := rfl
  rw [e]; exact BitVec.add_zero a

/-- A loop that ends within its reads ends in the relation's last state. -/
theorem stringLoop_of_run (chars : Word → List Byte) {k : Nat} {a : Word} {s t : State} (h : StringRun chars k a s t)
    (n : Nat) (hk : k ≤ n) : stringLoop chars n a s = (none, t) := by
  induction h generalizing n with
  | stop hz =>
    obtain ⟨m, rfl⟩ := Nat.exists_eq_add_one_of_ne_zero (Nat.ne_of_gt hk)
    exact stringLoop_stop _ _ _ _ hz
  | more hz _ ih =>
    obtain ⟨m, rfl⟩ := Nat.exists_eq_add_one_of_ne_zero (n := n) (by omega)
    rw [stringLoop_more _ _ _ _ hz]
    exact ih m (by omega)

/-- A loop whose reads all return words that are not zero is in the relation's last state, about to read the next. -/
theorem stringLoop_of_reads (chars : Word → List Byte) {n : Nat} {a : Word} {s t : State}
    (h : StringReads chars n a s t) : stringLoop chars n a s = (some (a + BitVec.ofNat 16 n), t) := by
  have e : (stringLoop chars n a s).2 = t ∧ (stringLoop chars n a s).1.isSome := by
    induction h with
    | refl => exact ⟨rfl, rfl⟩
    | more hz _ ih => rwa [stringLoop_more _ _ _ _ hz]
  obtain ⟨b, hb⟩ := Option.isSome_iff_exists.mp e.2
  exact Prod.ext (hb.trans (congrArg some (stringLoop_address _ _ _ _ _ hb))) e.1

/-- The loop ends within `n` reads, or makes them all. -/
theorem stringRun_or_reads (chars : Word → List Byte) (n : Nat) (a : Word) (s : State) :
    (∃ k t, k ≤ n ∧ StringRun chars k a s t) ∨ ∃ t, StringReads chars n a s t := by
  induction n generalizing a s with
  | zero => exact Or.inr ⟨s, .refl a s⟩
  | succ n ih =>
    by_cases hz : (memRead a s).1 = 0
    · exact Or.inl ⟨1, _, by omega, .stop hz⟩
    · rcases ih (a + 1) ((memRead a s).2.emit (chars (memRead a s).1)) with ⟨k, t, hk, h⟩ | ⟨t, h⟩
      · exact Or.inl ⟨k + 1, t, by omega, .more hz h⟩
      · exact Or.inr ⟨t, .more hz h⟩

/-- Reads, and then reads from where they stopped. -/
theorem StringReads.trans {chars : Word → List Byte} {m n : Nat} {a : Word} {s t u : State}
    (h : StringReads chars m a s t) (h' : StringReads chars n (a + BitVec.ofNat 16 m) t u) :
    StringReads chars (m + n) a s u := by
  induction h with
  | refl => simpa using h'
  | @more m a s t hz _ ih =>
    have e : m + 1 + n = m + n + 1 := by omega
    rw [e]
    refine .more hz (ih ?_)
    rwa [word_step]

/-- Reads, and then a loop that ends, from where they stopped. -/
theorem StringReads.run {chars : Word → List Byte} {m n : Nat} {a : Word} {s t u : State}
    (h : StringReads chars m a s t) (h' : StringRun chars n (a + BitVec.ofNat 16 m) t u) :
    StringRun chars (m + n) a s u := by
  induction h with
  | refl => simpa using h'
  | @more m a s t hz _ ih =>
    have e : m + 1 + n = m + n + 1 := by omega
    rw [e]
    refine .more hz (ih ?_)
    rwa [word_step]

/-- Reads away from the status address, none of which finds the zero word, are plain: only the output grows, by at least
a byte a read when each word has a character. -/
theorem stringReads_plain (chars : Word → List Byte) (hc : ∀ w, chars w ≠ []) (n : Nat) (a : Word) (s : State)
    (ha : ∀ j, j < n → a + BitVec.ofNat 16 j ≠ config.kbsrAddr)
    (hz : ∀ j, j < n → s.peek (a + BitVec.ofNat 16 j) ≠ 0) :
    ∃ bytes, n ≤ bytes.length ∧ StringReads chars n a s (s.emit bytes) := by
  induction n generalizing a s with
  | zero => exact ⟨[], Nat.le_refl _, by simpa [State.emit] using StringReads.refl a s⟩
  | succ n ih =>
    have h0 : memRead a s = (s.peek a, s) := memRead_plain a s (by simpa using ha 0 (by omega))
    obtain ⟨bytes, hl, h⟩ := ih (a + 1) (s.emit (chars (s.peek a)))
      (fun j hj => by rw [word_step]; exact ha (j + 1) (by omega))
      (fun j hj => by rw [emit_peek, word_step]; exact hz (j + 1) (by omega))
    refine ⟨chars (s.peek a) ++ bytes, ?_, ?_⟩
    · have := List.length_pos_iff.mpr (hc (s.peek a))
      simp only [List.length_append]; omega
    · refine .more (by rw [h0]; simpa using hz 0 (by omega)) ?_
      rw [h0]
      simpa [State.emit] using h

/-! ### Strings that cannot end -/

/-- Every word but the status word is non-zero, and so is every character that waits. -/
def NoZeroInSight (s : State) : Prop := (∀ a, a ≠ config.kbsrAddr → s.peek a ≠ 0) ∧ ∀ b ∈ s.inQ, b ≠ 0

theorem zext16_ne_zero (b : Byte) (h : b ≠ 0) : zext16 b ≠ 0 := by
  intro e
  apply h
  have := congrArg BitVec.toNat e
  apply BitVec.eq_of_toNat_eq
  have hb := b.isLt
  have h0 : (0 : Byte).toNat = 0 := rfl
  have h1 : (0 : Word).toNat = 0 := rfl
  simp only [zext16, BitVec.toNat_setWidth, h1] at this
  omega

theorem readyStatus_ne_zero (p : Bool) (old : Word) : readyStatus p old ≠ 0 := by
  intro e
  have := congrArg (fun w => BitVec.getLsbD w 15) e
  cases p <;> simp [readyStatus] at this

/-- A bus read of the status address with a character waiting takes exactly that character. -/
theorem memRead_status_inQ (s : State) (hq : s.inQ ≠ []) : (memRead config.kbsrAddr s).2.inQ = s.inQ.tail := by
  obtain ⟨b, rest, hb⟩ := List.exists_cons_of_ne_nil hq
  have e : (memRead config.kbsrAddr s).2 = pollStatus s := by simp [memRead]
  rw [e, pollStatus_ready s b rest hb, hb]
  rfl

/-- With no zero in sight and a character waiting, a bus read returns no zero word and leaves none in sight. -/
theorem memRead_noZero (a : Word) (s : State) (h : NoZeroInSight s) (hq : s.inQ ≠ []) :
    (memRead a s).1 ≠ 0 ∧ NoZeroInSight (memRead a s).2 ∧ s.inQ.length ≤ (memRead a s).2.inQ.length + 1 := by
  by_cases ha : a = config.kbsrAddr
  · subst ha
    obtain ⟨b, rest, hb⟩ := List.exists_cons_of_ne_nil hq
    have hne : config.kbsrAddr ≠ config.kbdrAddr := by decide
    have e : memRead config.kbsrAddr s = ((pollStatus s).peek config.kbsrAddr, pollStatus s) := by simp [memRead]
    rw [e, pollStatus_ready s b rest hb]
    refine ⟨?_, ⟨fun c hc => ?_, fun c hc => ?_⟩, by simp [hb]⟩
    · rw [poke_peek_other _ _ _ _ hne, poke_peek_same]; exact readyStatus_ne_zero config.kbsrReadyPreservesLow (s.peek config.kbsrAddr)
    · rw [poke_peek]
      split
      · exact zext16_ne_zero b (h.2 b (by simp [hb]))
      · rw [poke_peek_other _ _ _ _ hc]; exact h.1 c hc
    · exact h.2 c (by rw [hb]; exact List.mem_cons_of_mem _ hc)
  · rw [memRead_plain a s ha]
    exact ⟨h.1 a ha, h, by simp⟩

/-- What a lap keeps: everything but memory, the queue and the output. -/
def LapKeeps (s t : State) : Prop :=
  t.regs = s.regs ∧ t.pc = s.pc ∧ t.cc = s.cc ∧ t.run = s.run ∧ t.pending = s.pending ∧ t.host = s.host

/-- From `a` on, the addresses before the `(kbsrAddr - a)`-th are not the status address, and that one is. -/
theorem before_status (a : Word) :
    (∀ j, j < (config.kbsrAddr - a).toNat → a + BitVec.ofNat 16 j ≠ config.kbsrAddr) ∧
      a + BitVec.ofNat 16 (config.kbsrAddr - a).toNat = config.kbsrAddr := by
  have ha := a.isLt
  have hk := config.kbsrAddr.isLt
  constructor
  · intro j hj e
    have := congrArg BitVec.toNat e
    simp only [BitVec.toNat_add, BitVec.toNat_ofNat, BitVec.toNat_sub] at this hj
    omega
  · apply BitVec.eq_of_toNat_eq
    simp only [BitVec.toNat_add, BitVec.toNat_ofNat, BitVec.toNat_sub]
    omega

/-- After the status address a lap's other addresses are not it. -/
theorem after_status (j : Nat) (h : j < config.memWords - 1) : config.kbsrAddr + 1 + BitVec.ofNat 16 j ≠ config.kbsrAddr := by
  intro e
  have hm : config.memWords = 65536 := rfl
  have hk := config.kbsrAddr.isLt
  have := congrArg BitVec.toNat e
  have h1 : (1 : Word).toNat = 1 := rfl
  simp only [BitVec.toNat_add, BitVec.toNat_ofNat, h1] at this
  omega

/-- A lap with no zero in sight and a character waiting: it makes all its reads, takes exactly the character at the head,
emits at least a byte a word, keeps the rest, and leaves no zero in sight. -/
theorem lap_noZero (chars : Word → List Byte) (hc : ∀ w, chars w ≠ []) (a : Word) (s : State) (h : NoZeroInSight s)
    (hq : s.inQ ≠ []) :
    ∃ t, StringReads chars config.memWords a s t ∧ NoZeroInSight t ∧ t.inQ = s.inQ.tail ∧ LapKeeps s t ∧
      s.out.length + config.memWords ≤ t.out.length := by
  obtain ⟨ha, hs⟩ := before_status a
  obtain ⟨bytes, hl, h1⟩ := stringReads_plain chars hc _ a s ha (fun j hj => h.1 _ (ha j hj))
  have hq1 : (s.emit bytes).inQ ≠ [] := hq
  have n1 : NoZeroInSight (s.emit bytes) := h
  obtain ⟨hz, n2, -⟩ := memRead_noZero config.kbsrAddr _ n1 hq1
  obtain ⟨more, hm, h2⟩ := stringReads_plain chars hc (config.memWords - 1 - (config.kbsrAddr - a).toNat)
    (config.kbsrAddr + 1)
    ((memRead config.kbsrAddr (s.emit bytes)).2.emit (chars (memRead config.kbsrAddr (s.emit bytes)).1))
    (fun j hj => after_status j (by omega)) (fun j hj => n2.1 _ (after_status j (by omega)))
  have hk : (config.kbsrAddr - a).toNat < config.memWords := (config.kbsrAddr - a).isLt
  have hw := List.length_pos_iff.mpr (hc (memRead config.kbsrAddr (s.emit bytes)).1)
  have e : (config.kbsrAddr - a).toNat + (config.memWords - 1 - (config.kbsrAddr - a).toNat + 1) = config.memWords := by
    omega
  have lap := h1.trans (by rw [hs]; exact StringReads.more hz h2)
  rw [e] at lap
  refine ⟨_, lap, n2, memRead_status_inQ _ hq1, ⟨by simp, by simp, by simp, by simp, by simp, by simp⟩, ?_⟩
  simp only [emit_out, memRead_out, List.length_append]
  omega

/-- A string with no zero in sight does not end within as many reads as there are characters waiting. -/
theorem stringRun_never_ends (chars : Word → List Byte) (n : Nat) (a : Word) (s t : State) (h : NoZeroInSight s)
    (hn : n ≤ s.inQ.length) : ¬ StringRun chars n a s t := by
  intro r
  induction r with
  | @stop a s hz => exact (memRead_noZero a s h (by rintro e; simp [e] at hn)).1 hz
  | @more n a s t _ _ ih =>
    obtain ⟨_, h2, h3⟩ := memRead_noZero a s h (by rintro e; simp [e] at hn)
    exact ih h2 (by simp only [emit_inQ]; omega)

/-- A memory that lists one non-zero word at every address of a list reads as that word there. -/
theorem Memory.read_map_const (as : List Nat) (v : Word) (a : Nat) (h : a ∈ as) :
    Memory.read (as.map (fun b => (b, v))) a = v := by
  induction as with
  | nil => cases h
  | cons b rest ih =>
    simp only [List.map_cons, Memory.read]
    split
    · rfl
    · rename_i hne
      exact ih ((List.mem_cons.mp h).resolve_left hne)

end Sys2Proof.Machine
end

