-- ==== Sys2Proof/Tests/Slice0.lean ====
section
/-! SUPPORT. The model's own tests. Expected values are those of spec/95_test_vectors.md, whose vector is named beside
each, or are worked out by hand from the rule named. After them, one witness for the hypotheses of each statement. -/

namespace Sys2Proof.Tests

open Sys2Proof.Machine

/-! ### Helpers -/

/-- The reset state with these registers and this memory. -/
def start (regs : Vector Word 8) (mem : Memory) : State := { State.resetWith regs [] HostPlan.idle with mem := mem }

/-- Registers with one value set. -/
def oneReg (r : Fin 8) (v : Word) : Vector Word 8 := (Vector.replicate 8 0).set r v

/-- The state after one step, and the given view of it. -/
def seen {α : Type} (s : State) (view : State → α) : Option α :=
  match step s with
  | .next t => some (view t)
  | .fault _ => none
  | .refused _ => none

/-! ### WellFormed refuses ill-formed terms -/

theorem test_wellFormed_refuses_general_trap : ¬ (Instr.trap 0x20).WellFormed := by decide
theorem test_wellFormed_refuses_defined_vector_as_undefined : ¬ (Instr.trapUndefined 0x25).WellFormed := by decide
theorem test_wellFormed_accepts_undefined_vector : (Instr.trapUndefined 0x26).WellFormed := by decide

/-! ### Decoding, each word written from its row's pattern (30_encoding.md R62, R64) -/

theorem test_decode_br : decode 0b0000_001_111111101 = .br false false true 0b111111101 := by decide
theorem test_decode_br_mask : decode 0b0000_110_000000001 = .br true true false 1 := by decide
theorem test_decode_addReg : decode 0b0001_000_001_0_11_010 = .addReg 0 1 2 := by decide
theorem test_decode_addImm : decode 0b0001_010_001_1_11110 = .addImm 2 1 0b11110 := by decide
theorem test_decode_ld : decode 0b0010_001_111111111 = .ld 1 0b111111111 := by decide
theorem test_decode_st : decode 0b0011_000_000000001 = .st 0 1 := by decide
theorem test_decode_jsr : decode 0b0100_1_01111111111 = .jsr 0b01111111111 := by decide
theorem test_decode_jsrr : decode 0b0100_0_11_010_111111 = .jsrr 2 := by decide
theorem test_decode_andReg : decode 0b0101_001_010_0_00_011 = .andReg 1 2 3 := by decide
theorem test_decode_andImm : decode 0b0101_100_011_1_01111 = .andImm 4 3 15 := by decide
theorem test_decode_ldr : decode 0b0110_011_100_011111 = .ldr 3 4 31 := by decide
theorem test_decode_str : decode 0b0111_010_001_000001 = .str 2 1 1 := by decide
theorem test_decode_reservedA : decode 0b1000_111111111111 = .reservedA := by decide
theorem test_decode_not : decode 0b1001_001_010_000000 = .not 1 2 := by decide
theorem test_decode_ldi : decode 0b1010_000_111111011 = .ldi 0 0b111111011 := by decide
theorem test_decode_sti : decode 0b1011_011_000001111 = .sti 3 15 := by decide
theorem test_decode_jmp : decode 0b1100_111_111_111111 = .jmp 7 := by decide
theorem test_decode_reservedB : decode 0b1101_101010111100 = .reservedB := by decide
theorem test_decode_lea : decode 0b1110_001_000001001 = .lea 1 9 := by decide
theorem test_decode_traps : [0xF020, 0xF021, 0xF022, 0xF023, 0xF024, 0xFF25, 0xF01F, 0xF026].map decode =
    [.getc, .out, .puts, .in_, .putsp, .halt, .trapUndefined 0x1F, .trapUndefined 0x26] := by decide
theorem test_encode_not_writes_ones : encode (.not 0 0) = 0x903F := by decide
theorem test_decodeTableWord : decodeTableWord 16 0x9000 = some (.not 0 0) ∧ decodeTableWord 32 0 = none := by decide

/-! ### One step of each instruction -/

theorem test_add_wraps_signed : -- V-OP-3
    seen (start #v[0, 0x7FFF, 1, 0, 0, 0, 0, 0] [(0x3000, 0x1042)]) (fun t => (t.x 0, t.cc, t.pc)) =
      some (0x8000, .negative, 0x3001) := by decide
theorem test_add_same_register : -- V-OP-4
    seen (start (oneReg 3 0x8000) [(0x3000, 0x16C3)]) (fun t => (t.x 3, t.cc)) = some (0, .zero) := by decide
theorem test_add_immediate : -- V-OP-1
    seen (start (oneReg 1 3) [(0x3000, 0x147E)]) (fun t => (t.x 2, t.cc)) = some (1, .positive) := by decide
theorem test_and_register : -- V-OP-11
    seen (start #v[0, 0, 0xFF00, 0x8F0F, 0, 0, 0, 0] [(0x3000, 0x5283)]) (fun t => (t.x 1, t.cc)) =
      some (0x8F00, .negative) := by decide
theorem test_and_immediate_extends : -- V-OP-12
    seen (start (oneReg 2 0x1234) [(0x3000, 0x52BF)]) (fun t => (t.x 1, t.cc)) = some (0x1234, .positive) := by decide
theorem test_not : -- V-OP-15
    seen (start (oneReg 2 0x8000) [(0x3000, 0x9280)]) (fun t => (t.x 1, t.cc)) = some (0x7FFF, .positive) := by decide
theorem test_br_taken_backwards : -- V-CT-5
    seen (start (oneReg 0 0) [(0x3000, 0x0500)]) (fun t => t.pc) = some 0x2F01 := by decide
theorem test_br_not_taken_at_reset : -- V-CT-8b
    seen (start (oneReg 0 0) [(0x3000, 0x0A05)]) (fun t => t.pc) = some 0x3001 := by decide
theorem test_jmp : -- V-CT-9
    seen (start (oneReg 2 0x1234) [(0x3000, 0xC080)]) (fun t => t.pc) = some 0x1234 := by decide
theorem test_jsr_backwards : -- V-CT-12
    seen (start (oneReg 0 0) [(0x3000, 0x4C00)]) (fun t => (t.x 7, t.pc, t.cc)) = some (0x3001, 0x2C01, .zero) := by
  decide
theorem test_jsrr : -- V-CT-15, at 0x3000
    seen (start (oneReg 2 0x4000) [(0x3000, 0x4080)]) (fun t => (t.x 7, t.pc)) = some (0x3001, 0x4000) := by decide
theorem test_jsrr_r7_falls_through : -- V-CT-16, at 0x3000
    seen (start (oneReg 7 0x5000) [(0x3000, 0x41C0)]) (fun t => (t.x 7, t.pc)) = some (0x3001, 0x3001) := by decide
theorem test_ld_own_word : -- V-LS-2
    seen (start (oneReg 0 0) [(0x3000, 0x23FF)]) (fun t => (t.x 1, t.cc)) = some (0x23FF, .positive) := by decide
theorem test_ldi : -- V-LS-4
    seen { start (oneReg 0 0) [(0x3000, 0x3002), (0x3002, 0x1234), (0x3004, 0xA1FB)] with pc := 0x3004 }
      (fun t => (t.x 0, t.cc)) = some (0x1234, .positive) := by decide
theorem test_ldi_polls : -- V-LS-5b
    seen { start (oneReg 0 0) [(0x3000, 0xA001), (0x3002, 0xFE00)] with inQ := [0x41] }
      (fun t => (t.x 0, t.cc, t.peek 0xFE00, t.peek 0xFE02, t.inQ)) =
      some (0x8000, .negative, 0x8000, 0x0041, []) := by decide
theorem test_ldr_wraps : -- V-LS-7
    seen (start (oneReg 0 0) [(0x3000, 0x627F), (0xFFFF, 0x0042)]) (fun t => (t.x 1, t.cc)) =
      some (0x0042, .positive) := by decide
theorem test_ldr_same_base : -- the base is read before DR is written (R102): LDR R1,R1,#0
    seen (start (oneReg 1 0x4000) [(0x3000, 0x6240), (0x4000, 0x8001)]) (fun t => (t.x 1, t.cc)) =
      some (0x8001, .negative) := by decide
theorem test_lea_sets_flags : -- V-LS-12
    seen { start (oneReg 0 0) [(0x7FFF, 0xE400)] with pc := 0x7FFF } (fun t => (t.x 2, t.cc, t.pc)) =
      some (0x8000, .negative, 0x8000) := by decide
theorem test_st : -- V-LS-14, at 0x3000
    seen (start (oneReg 0 0x000F) [(0x3000, 0x3001)]) (fun t => (t.peek 0x3002, t.cc)) = some (0x000F, .zero) := by decide
theorem test_st_own_word : -- V-LS-20
    seen (start (oneReg 0 0xF025) [(0x3000, 0x31FF)]) (fun t => (t.peek 0x3000, t.run, t.pc)) =
      some (0xF025, .running, 0x3001) := by decide
theorem test_sti : -- V-LS-16
    seen (start (oneReg 3 0xBEEF) [(0x3000, 0xB60F), (0x3010, 0x4000)]) (fun t => (t.peek 0x4000, t.peek 0x3010)) =
      some (0xBEEF, 0x4000) := by decide
theorem test_str_wraps : -- V-LS-19
    seen (start #v[0, 0xFFFF, 0x00AA, 0, 0, 0, 0, 0] [(0x3000, 0x7441)]) (fun t => t.peek 0x0000) = some 0x00AA := by
  decide
theorem test_str_to_data_word_is_plain : -- V-IO-7
    seen { start #v[0x1234, 0xFE02, 0, 0, 0, 0, 0, 0] [(0x3000, 0x7040)] with inQ := [0x51] }
      (fun t => (t.peek 0xFE02, t.inQ)) = some (0x1234, [0x51]) := by decide
theorem test_getc : -- V-TR-1
    seen { start (oneReg 0 0xFFFF) [(0x3000, 0xF020)] with inQ := [0x78] }
      (fun t => (t.x 7, t.x 0, t.cc, t.inQ, t.out)) = some (0x3001, 0x0078, .positive, [], []) := by decide
theorem test_getc_blocks : -- V-TR-3
    seen { start (oneReg 0 0x1111) [(0x3000, 0xF020)] with cc := .negative }
      (fun t => (t.x 7, t.x 0, t.cc, t.pc, t.pending)) = some (0x3001, 0x1111, .negative, 0x3001, some .getc) := by decide
theorem test_out : -- V-TR-4
    seen (start (oneReg 0 0x1241) [(0x3000, 0xF021)]) (fun t => (t.x 7, t.out, t.x 0)) =
      some (0x3001, [0x41], 0x1241) := by decide
theorem test_puts_stops_at_the_zero_word : -- V-TR-6
    seen (start (oneReg 0 0x4000) [(0x3000, 0xF022), (0x4000, 0x0141), (0x4001, 0x4100)])
      (fun t => (t.x 7, t.out, t.pending)) = some (0x3001, [0x41, 0x00], none) := by decide
theorem test_puts_crosses_the_status_address : -- V-TR-18
    seen { start (oneReg 0 0xFDFF) [(0x3000, 0xF022), (0xFDFF, 0x0041)] with inQ := [0x5A] }
      (fun t => (t.out, t.peek 0xFE00, t.peek 0xFE02, t.inQ)) = some ([0x41, 0x00], 0x8000, 0x005A, []) := by decide
theorem test_in : -- V-TR-9
    seen { start (oneReg 0 0) [(0x3000, 0xF023)] with inQ := [0x79] } (fun t => (t.out, t.x 0, t.cc)) =
      some (config.inPrompt ++ [0x79], 0x0079, .positive) := by decide
theorem test_in_prompts_before_it_blocks : -- V-TR-10
    seen (start (oneReg 0 0x2222) [(0x3000, 0xF023)]) (fun t => (t.out, t.x 7, t.x 0, t.pending)) =
      some (config.inPrompt, 0x3001, 0x2222, some .in_) := by decide
theorem test_putsp_packs : -- V-TR-11
    seen (start (oneReg 0 0x3006) [(0x3000, 0xF024), (0x3006, 0x6B4F), (0x3007, 0x0021)]) (fun t => t.out) =
      some [0x4F, 0x6B, 0x21] := by decide
theorem test_putsp_emits_a_zero_low_byte : -- V-TR-12
    seen (start (oneReg 0 0x4000) [(0x3000, 0xF024), (0x4000, 0x4100)]) (fun t => t.out) = some [0x00, 0x41] := by decide
theorem test_halt : -- V-TR-13, at 0x3000
    seen (start (oneReg 0 0) [(0x3000, 0xF025)]) (fun t => (t.run, t.out, t.x 7, t.pc)) =
      some (.halted, [0x48, 0x41, 0x4C, 0x54, 0x0A], 0x3001, 0x3001) := by decide
theorem test_undefined_vector : -- V-TR-16
    seen (start (oneReg 0 9) [(0x3000, 0xF0FF)]) (fun t => t) =
      some { start #v[9, 0, 0, 0, 0, 0, 0, 0x3001] [(0x3000, 0xF0FF)] with pc := 0x3001 } := by decide
theorem test_reservedA_aborts : -- V-RS-1, at 0x3000
    seen (start (oneReg 3 7) [(0x3000, 0x8000)]) (fun t => t) =
      some { start (oneReg 3 7) [(0x3000, 0x8000)] with pc := 0x3001, run := .aborted } := by decide
theorem test_reservedB_aborts : -- V-RS-4
    seen { start (oneReg 3 7) [(0x3000, 0xDABC)] with cc := .negative } (fun t => (t.run, t.pc, t.x 3, t.cc)) =
      some (.aborted, 0x3001, 7, .negative) := by decide

/-! ### The bus, the host, the loader, the placing of a word -/

theorem test_fetch_polls : -- V-IO-5
    seen { start (oneReg 0 0) [] with pc := 0xFE00, inQ := [0x41] }
      (fun t => (t.run, t.pc, t.peek 0xFE00, t.peek 0xFE02, t.inQ)) =
      some (.aborted, 0xFE01, 0x8000, 0x0041, []) := by decide
theorem test_ready_keeps_low_bits_when_so_configured : -- V-IO-8
    readyStatus true 0x0005 = 0x8005 ∧ readyStatus false 0x0005 = 0x8000 := by decide
theorem test_blocked_getc_completes_on_arrival : -- V-TR-3, the host's append before the second step
    seen { start #v[0x1111, 0, 0, 0, 0, 0, 0, 0x3001] [] with
        pc := 0x3001, pending := some .getc, host := ⟨[.append [0x78]], []⟩ }
      (fun t => (t.x 0, t.cc, t.pending, t.pc, t.host)) = some (0x0078, .positive, none, 0x3001, HostPlan.idle) := by decide
theorem test_kill_ends_the_run : seen { start (oneReg 0 0) [] with host := ⟨[.kill], []⟩ } (fun t => t.pc) = none := by decide
theorem test_the_plan_repeats : -- R28: a host that types for ever
    (hostTurn { start (oneReg 0 0) [] with host := ⟨[], [.append [0x41]]⟩ }).map (fun t => (t.inQ, t.host)) =
      some ([0x41], ⟨[], [.append [0x41]]⟩) := by decide
theorem test_load_last_write_wins : -- V-LD-6
    (loadImage [0x30, 0x01, 0xAA, 0xAA]
      (loadImage [0x30, 0x00, 0x11, 0x11, 0x22, 0x22, 0x33, 0x33] State.reset)).mem =
      [(0x3000, 0x1111), (0x3001, 0xAAAA), (0x3002, 0x3333)] := by decide
theorem test_load_stops_at_the_top : -- V-LD-5, and the dangling byte of V-LD-4
    (loadImage [0xFF, 0xFF, 0x00, 0x01, 0x00, 0x02, 0x00] State.reset).mem = [(0xFFFF, 0x0001)] := by decide
theorem test_withFetchWord_runs_the_word : -- R80: R2 becomes R1 - 2
    seen (State.reset.withFetchWord 16 0x147E) (fun t => t.x 2) = some 0xFFFE := by decide
theorem test_withFetchWord_leaves_the_status_address :
    seen ({ State.reset with pc := 0xFE00 }.withFetchWord 16 0x127F) (fun t => (t.x 1, t.pc)) = some (0xFFFF, 0x3001) := by
  decide

/-! ### Witnesses: for each statement with hypotheses, concrete values that meet them all, clause by clause -/

/-- R0 = 0x4000, memory `m`, queued characters `q`. -/
def stringsOver (m : Memory) (q : List Byte) : State := { start (oneReg 0 0x4000) m with inQ := q }
theorem stringsOver_mem (m : Memory) (q : List Byte) : (saveLink (stringsOver m q)).mem = m := rfl
theorem stringsOver_inQ (m : Memory) (q : List Byte) : (saveLink (stringsOver m q)).inQ = q := rfl

/-- A memory that reads `w` at each of the addresses `ks`. -/
def constantMemory (ks : List Nat) (w : Word) : Memory := ks.map (fun a => (a, w))

theorem noZero_of_constant (ks : List Nat) (n : Nat) (w : Word) (c : Byte) (hk : ∀ a : Word, a.toNat ∈ ks)
    (hw : w ≠ 0) (hc : c ≠ 0) : NoZeroInSight (saveLink (stringsOver (constantMemory ks w) (List.replicate n c))) := by
  refine ⟨fun a _ => ?_, fun b hb => ?_⟩
  · rw [State.peek, stringsOver_mem, constantMemory, Memory.read_map_const ks w a.toNat (hk a)]; exact hw
  · rw [stringsOver_inQ] at hb; rw [List.eq_of_mem_replicate hb]; exact hc

theorem no_run_of_constant (chars : Word → List Byte) (ks : List Nat) (n k : Nat) (w : Word) (c : Byte)
    (hk : ∀ a : Word, a.toNat ∈ ks) (hw : w ≠ 0) (hc : c ≠ 0) (h : k ≤ n) (t : State) :
    ¬ StringRun chars k ((stringsOver (constantMemory ks w) (List.replicate n c)).x 0)
      (saveLink (stringsOver (constantMemory ks w) (List.replicate n c))) t :=
  stringRun_never_ends chars k _ _ t (noZero_of_constant ks n w c hk hw hc)
    (by rw [stringsOver_inQ, List.length_replicate]; exact h)

/-- A state in which a string never ends within a lap: no zero word anywhere, and more characters than a lap has reads. -/
def endless : State := stringsOver (constantMemory (List.range 65536) 0x0101) (List.replicate 65537 0x41)

theorem endless_no_run (chars : Word → List Byte) (n : Nat) (t : State) (h : n ≤ config.memWords) :
    ¬ StringRun chars n (endless.x 0) (saveLink endless) t := by
  unfold endless
  exact no_run_of_constant chars (List.range 65536) 65537 n 0x0101 0x41 (fun a => List.mem_range.mpr a.isLt) (by decide)
    (by decide) (Nat.le_succ_of_le h) t

theorem witness_SignExtensionKeepsTheSignedValue :
    (1 ≤ 1 ∧ 1 ≤ 16 ∧ (1#1).msb = true) ∧ (1 ≤ 5 ∧ 5 ≤ 16 ∧ (0b01111#5).msb = false) ∧
    (1 ≤ 16 ∧ 16 ≤ 16 ∧ (0x8000#16).msb = true) := by decide

theorem witness_FlagsClassifyTheLastFlaggedResult :
    (∃ t, exec (.st 0 0) State.reset = .next t ∧ flagSource (.st 0 0) = none) ∧
    (∃ t, exec (.lea 1 0) State.reset = .next t ∧ flagSource (.lea 1 0) = some 1 ∧ blocksForInput (.lea 1 0) = false) ∧
    (∃ t, exec .getc State.reset = .next t ∧ flagSource .getc = some 0 ∧ blocksForInput .getc = true ∧
      State.reset.inQ = []) ∧
    (∃ t, exec (.trap 0x23) { State.reset with inQ := [0x41] } = .next t ∧ flagSource (.trap 0x23) = some 0 ∧
      ({ State.reset with inQ := [0x41] } : State).inQ ≠ []) ∧
    State.reset.x 0 = 0 ∧ ((start (oneReg 0 0x8000) []).x 0 ≠ 0 ∧ ((start (oneReg 0 0x8000) []).x 0).getLsbD 15 = true) ∧
    ((start (oneReg 0 0x7FFF) []).x 0 ≠ 0 ∧ ((start (oneReg 0 0x7FFF) []).x 0).getLsbD 15 = false) :=
  ⟨⟨_, rfl, rfl⟩, ⟨_, rfl, rfl, rfl⟩, ⟨_, rfl, rfl, rfl, rfl⟩, ⟨_, rfl, rfl, by decide⟩, by decide, by decide, by decide⟩

theorem witness_RegistersChangeOnlyWhereWritten :
    ∃ t, exec .getc State.reset = .next t ∧ (3 : Reg) ∉ writtenRegs .getc := ⟨_, rfl, by decide⟩

theorem witness_OnlyJumpsMoveThePc :
    (∃ t, exec .puts State.reset = .next t ∧ movesPc .puts State.reset = false) ∧
    (∃ t, exec (.br true false true 5) State.reset = .next t ∧ movesPc (.br true false true 5) State.reset = false) :=
  ⟨⟨_, rfl, rfl⟩, ⟨_, rfl, rfl⟩⟩

theorem witness_RunStateTransitions :
    (∃ t, step State.reset = .next t ∧ State.reset.run = .running) ∧
    (∃ t, step { State.reset with run := .halted } = .next t ∧ ({ State.reset with run := .halted } : State).run ≠ .running) ∧
    (∃ t, step (State.reset.withFetchWord 16 0xFF25) = .next t ∧ t.run = .halted) ∧
    (∃ t, step (State.reset.withFetchWord 16 0xDABC) = .next t ∧ t.run = .aborted) :=
  ⟨⟨_, rfl, rfl⟩, ⟨_, rfl, by decide⟩, ⟨_, rfl, rfl⟩, ⟨_, rfl, rfl⟩⟩

theorem witness_AddSumsAndSetsTheFlags :
    (opcodeOf 0x105A = config.opAdd ∧ (0x105A#16).getLsbD 5 = false) ∧
    (opcodeOf 0x1070 = config.opAdd ∧ (0x1070#16).getLsbD 5 = true) := by decide

theorem witness_AndMasksAndSetsTheFlags :
    (opcodeOf 0x5283 = config.opAnd ∧ (0x5283#16).getLsbD 5 = false) ∧
    (opcodeOf 0x58EF = config.opAnd ∧ (0x58EF#16).getLsbD 5 = true) := by decide

theorem witness_NotComplementsAndSetsTheFlags : opcodeOf 0x9280 = config.opNot := by decide

theorem witness_BranchIsTakenWhenItsMaskMeetsTheFlag :
    opcodeOf 0x03FD = config.opBr ∧ State.reset.cc = .zero := by decide

theorem witness_JmpGoesWhereTheRegisterSays : opcodeOf 0xCFFF = config.opJmp := by decide

theorem witness_JsrLinksAndGoesByOffset : opcodeOf 0x4BFF = config.opJsr ∧ (0x4BFF#16).getLsbD 11 = true := by decide

theorem witness_JsrrLinksBeforeItReadsTheBase :
    opcodeOf 0x41C0 = config.opJsr ∧ (0x41C0#16).getLsbD 11 = false ∧ (6 : Reg) ≠ 7 := by decide

theorem witness_LdLoadsFromThePcRelativeAddress : opcodeOf 0x2003 = config.opLd := by decide
theorem witness_LdiLoadsThroughAPointer : opcodeOf 0xA1FB = config.opLdi := by decide
theorem witness_LdrLoadsFromTheBaseAndOffset : opcodeOf 0x671F = config.opLdr := by decide
theorem witness_LeaLoadsTheAddressItself : opcodeOf 0xE1FF = config.opLea := by decide
theorem witness_StStoresAtThePcRelativeAddress :
    opcodeOf 0x31FF = config.opSt ∧ pcRel (0x1FF : BitVec 9) State.reset = 0x2FFF := by decide
theorem witness_StiStoresThroughAPointer : opcodeOf 0xB60F = config.opSti ∧
    memRead (pcRel (0 : BitVec 9) State.reset) State.reset = (0, State.reset) := by decide
theorem witness_StrStoresAtTheBaseAndOffset :
    opcodeOf 0x7441 = config.opStr ∧ baseOff 0 (0x3F : BitVec 6) State.reset = 0xFFFF := by decide

theorem witness_TrapLinksAndSelectsByItsVector : opcodeOf 0xFABC = config.opTrap := by decide

theorem witness_GetcTakesOneCharacter :
    (opcodeOf 0xF020 = config.opTrap ∧ (0xF020#16).extractLsb' 0 8 = config.tvGetc) ∧
    ({ State.reset with inQ := [0x00, 0xFF] } : State).inQ = 0x00 :: [0xFF] ∧ State.reset.inQ = [] := by decide

theorem witness_OutEmitsTheLowByteOfR0 :
    opcodeOf 0xF921 = config.opTrap ∧ (0xF921#16).extractLsb' 0 8 = config.tvOut := by decide

theorem witness_PutsEmitsOneByteAWord :
    (1 : Nat) < 65536 ∧
    (∀ j, j ≤ 1 → (start (oneReg 0 0xFFFF) [(0xFFFF, 0x4100)]).x 0 + BitVec.ofNat 16 j ≠ config.kbsrAddr) ∧
    (∀ j, j < 1 → (start (oneReg 0 0xFFFF) [(0xFFFF, 0x4100)]).peek
      ((start (oneReg 0 0xFFFF) [(0xFFFF, 0x4100)]).x 0 + BitVec.ofNat 16 j) ≠ 0) ∧
    (start (oneReg 0 0xFFFF) [(0xFFFF, 0x4100)]).peek
      ((start (oneReg 0 0xFFFF) [(0xFFFF, 0x4100)]).x 0 + BitVec.ofNat 16 1) = 0 := by decide

theorem witness_InPromptsEchoesAndStores :
    (opcodeOf 0xF023 = config.opTrap ∧ (0xF023#16).extractLsb' 0 8 = config.tvIn) ∧
    ({ State.reset with inQ := [0x79] } : State).inQ = 0x79 :: [] ∧ State.reset.inQ = [] := by decide

theorem witness_PutspEmitsPackedBytes :
    (0 : Nat) < 65536 ∧ (∀ j, j ≤ 0 → State.reset.x 0 + BitVec.ofNat 16 j ≠ config.kbsrAddr) ∧
    (∀ j, j < 0 → State.reset.peek (State.reset.x 0 + BitVec.ofNat 16 j) ≠ 0) ∧
    State.reset.peek (State.reset.x 0 + BitVec.ofNat 16 0) = 0 := by decide

theorem putsChars_ne (w : Word) : putsChars w ≠ [] := List.cons_ne_nil _ _
theorem putspChars_ne (w : Word) : putspChars w ≠ [] := by unfold putspChars; split <;> exact List.cons_ne_nil _ _

theorem lap_of_constant (chars : Word → List Byte) (hch : ∀ w, chars w ≠ []) (ks : List Nat) (n : Nat) (w : Word) (c : Byte)
    (hk : ∀ a : Word, a.toNat ∈ ks) (hw : w ≠ 0) (hc : c ≠ 0) (a : Word) :
    ∃ t, StringReads chars config.memWords a (saveLink (stringsOver (constantMemory ks w) (List.replicate (n + 1) c))) t ∧
      t.inQ = List.replicate n c := by
  obtain ⟨t, h, -, hq, -⟩ := lap_noZero chars hch a _ (noZero_of_constant ks (n + 1) w c hk hw hc)
    (by rw [stringsOver_inQ]; exact List.cons_ne_nil _ _)
  exact ⟨t, h, hq.trans (by rw [stringsOver_inQ]; rfl)⟩

theorem endless_lap (chars : Word → List Byte) (hch : ∀ w, chars w ≠ []) :
    ∃ t, StringReads chars config.memWords (endless.x 0) (saveLink endless) t := by
  obtain ⟨t, h, -⟩ := lap_of_constant chars hch (List.range 65536) 65536 0x0101 0x41 (fun a => List.mem_range.mpr a.isLt)
    (by decide) (by decide) 0x4000
  exact ⟨t, h⟩

/-- One character more than none: the loop from the status address on takes it, makes a lap, and ends where it began. -/
theorem lap_and_end (chars : Word → List Byte) (hch : ∀ w, chars w ≠ []) :
    ∃ a s t, StringRun chars (config.memWords + (0 + 1)) a s t := by
  obtain ⟨u, h, hq⟩ := lap_of_constant chars hch (List.range 65536) 0 0x0101 0x41 (fun a => List.mem_range.mpr a.isLt)
    (by decide) (by decide) config.kbsrAddr
  refine ⟨_, _, _, h.run (.stop ?_)⟩
  rw [lap_address, memRead, if_pos rfl, pollStatus_empty u hq]
  exact poke_peek_same _ _ _

theorem witness_StringRoutinesFollowTheirLoop :
    (1 ≤ config.memWords ∧ StringRun putsChars 1 (State.reset.x 0) (saveLink State.reset) (saveLink State.reset)) ∧
    (1 ≤ config.memWords ∧ StringRun putspChars 1 (State.reset.x 0) (saveLink State.reset) (saveLink State.reset)) ∧
    (∃ t, StringReads putsChars config.memWords (endless.x 0) (saveLink endless) t) ∧
    (∃ t, StringReads putspChars config.memWords (endless.x 0) (saveLink endless) t) ∧
    (∀ n t, n ≤ config.memWords → ¬ StringRun putsChars n (endless.x 0) (saveLink endless) t) ∧
    (∀ n t, n ≤ config.memWords → ¬ StringRun putspChars n (endless.x 0) (saveLink endless) t) ∧
    (∃ a s t, StringRun putsChars (config.memWords + (0 + 1)) a s t) :=
  ⟨⟨by decide, .stop (by decide)⟩, ⟨by decide, .stop (by decide)⟩, endless_lap _ putsChars_ne, endless_lap _ putspChars_ne,
    fun n t h => endless_no_run _ n t h, fun n t h => endless_no_run _ n t h, lap_and_end _ putsChars_ne⟩

theorem witness_HaltPrintsItsNoticeAndHalts :
    opcodeOf 0xFF25 = config.opTrap ∧ (0xFF25#16).extractLsb' 0 8 = config.tvHalt := by decide

theorem witness_UndefinedVectorOnlyWritesR7 :
    (opcodeOf 0xF026 = config.opTrap ∧ (0xF026#16).extractLsb' 0 8 ∉ definedVectors) ∧ (0x1F : Byte) ∉ definedVectors := by
  decide

theorem witness_ReservedOpcodesAbort : opcodeOf 0x8FFF = config.opResA ∧ opcodeOf 0xD000 = config.opResB := by decide

theorem witness_IllegalOpcodeEndsTheRunPrecisely :
    let s := start (oneReg 3 7) [(0x3000, 0xDABC)]
    let k := ({ State.reset with pc := 0xFE00, inQ := [0x41] } : State)
    (s.run = .running ∧ hostTurn s = some s ∧ s.pending = none ∧ opcodeOf (memRead s.pc s).1 = config.opResB) ∧
    (k.run = .running ∧ hostTurn k = some k ∧ k.pending = none ∧ opcodeOf (memRead k.pc k).1 = config.opResA) := by decide

theorem witness_PlainReadsHaveNoSideEffect : (0xFE02 : Word) ≠ config.kbsrAddr ∧ (0xFDFF : Word) ≠ config.kbsrAddr := by
  decide

theorem witness_StatusReadPollsOnce :
    State.reset.inQ = [] ∧ ({ State.reset with inQ := [0xFF] } : State).inQ = 0xFF :: [] := by decide

theorem witness_LoadReturnsTheStoredValue :
    (∃ t, exec (.st 0 5) { State.reset with pc := 0x3001 } = .next t ∧ SameMemoryExcept [] t (t.setPc 0x3002) ∧
      (t.setPc 0x3002).pc + sext16 (4 : BitVec 9) = 0x3001 + sext16 (5 : BitVec 9) ∧
      (0x3001 : Word) + sext16 (5 : BitVec 9) ≠ config.kbsrAddr) ∧
    (∃ t, exec (.st 0 1) { State.reset with pc := 0xFDFF } = .next t ∧ SameMemoryExcept [] t (t.setPc 0xFE00) ∧
      (t.setPc 0xFE00).pc + sext16 (0 : BitVec 9) = 0xFDFF + sext16 (1 : BitVec 9) ∧
      (0xFDFF : Word) + sext16 (1 : BitVec 9) = config.kbsrAddr ∧ (t.setPc 0xFE00).inQ = []) :=
  ⟨⟨_, rfl, fun _ _ => rfl, by decide, by decide⟩, ⟨_, rfl, fun _ _ => rfl, by decide, by decide, rfl⟩⟩

theorem witness_MemoryChangesOnlyByStoresAndPolls :
    ∃ t, exec (.st 0 0) State.reset = .next t ∧ storeAddr (.st 0 0) State.reset ≠ some 0x3001 ∧
      (0x3001 : Word) ≠ config.kbsrAddr ∧ (0x3001 : Word) ≠ config.kbdrAddr := ⟨_, rfl, by decide, by decide, by decide⟩

theorem witness_StoredWordIsFetchedNext :
    let s := start #v[0x1225, 0x3001, 0, 0, 0, 0, 0, 0] [(0x3000, 0x3000)]
    let u := start #v[0x1225, 0x3001, 0, 0, 0, 0, 0, 0] [(0x3000, 0x7040)]
    let v := start #v[0x1225, 0x3001, 0, 0, 0, 0, 0, 0] [(0x3000, 0xB001), (0x3002, 0x3001)]
    (s.run = .running ∧ s.host = HostPlan.idle ∧ s.pending = none ∧ s.pc ≠ config.kbsrAddr ∧ s.pc + 1 ≠ config.kbsrAddr ∧
      decode (s.peek s.pc) = .st 0 0 ∧ storeAddr (.st 0 0) (s.setPc (s.pc + 1)) = some (s.pc + 1)) ∧
    (decode (u.peek u.pc) = .str 0 1 0 ∧ storeAddr (.str 0 1 0) (u.setPc (u.pc + 1)) = some (u.pc + 1)) ∧
    (decode (v.peek v.pc) = .sti 0 1 ∧ storeAddr (.sti 0 1) (v.setPc (v.pc + 1)) = some (v.pc + 1)) := by decide

theorem witness_CanonicalMemoriesAreEqualWhenTheyReadAlike :
    Memory.wf [(0x0000, 1), (0xFFFF, 2)] ∧ Memory.wf [(0x0000, 1), (0xFFFF, 2)] ∧
    ∀ a, a < config.memWords → Memory.read [(0x0000, 1), (0xFFFF, 2)] a = Memory.read [(0x0000, 1), (0xFFFF, 2)] a :=
  ⟨by decide, by decide, fun _ _ => rfl⟩

theorem witness_LoadImageWritesTheStreamFromItsOrigin :
    ([0x30] : List Byte).length < 2 ∧ 2 ≤ ([0xFF, 0xFF, 0x00, 0x01, 0x00, 0x02] : List Byte).length ∧
    (0xFFFF = (([0xFF, 0xFF, 0x00, 0x01, 0x00, 0x02] : List Byte).getD 0 0).toNat * 256 +
      (([0xFF, 0xFF, 0x00, 0x01, 0x00, 0x02] : List Byte).getD 1 0).toNat) ∧
    (0xFFFF ≤ (0xFFFF#16).toNat ∧ 2 * ((0xFFFF#16).toNat - 0xFFFF) + 3 < 6) ∧
    ¬ (0xFFFF ≤ (0x0000#16).toNat ∧ 2 * ((0x0000#16).toNat - 0xFFFF) + 3 < 6) := by decide

theorem witness_LaunchAppliesTheImagesInOrder :
    none ∈ ([some [0x30, 0x00], none] : List (Option (List Byte))) ∧
    ([some [0x30, 0x00]] : List (Option (List Byte))) = [[0x30, 0x00]].map some ∧
    (∃ s, launch config.regReset [] HostPlan.idle [some [0x30, 0x00]] = some s) := ⟨by decide, rfl, ⟨_, rfl⟩⟩

theorem witness_StepRunsTheFetchedInstruction :
    let s := start (oneReg 1 3) [(0x3000, 0x147E)]
    (s.run = .running ∧ hostTurn s = some s ∧ s.pending = none ∧ (Instr.addImm 2 1 0b11110).WellFormed ∧
      s.pc ≠ config.kbsrAddr ∧ s.peek s.pc = encode (.addImm 2 1 0b11110) ∧ s.host = HostPlan.idle) ∧
    ({ s with host := ⟨[.append [0x41]], []⟩ } : State).host = ⟨.append [0x41] :: [], []⟩ ∧
    ({ s with host := ⟨[], [.append [0x41]]⟩ } : State).host = ⟨[], .append [0x41] :: []⟩ ∧
    (hostTurn { s with pending := some (.puts 0) } = some { s with pending := some (.puts 0) }) := by decide

theorem witness_TerminalStatesNeverChange :
    ({ State.reset with run := .halted } : State).Terminal ∧
    Reaches { State.reset with run := .halted } { State.reset with run := .halted } :=
  ⟨Or.inl rfl, .head rfl (.refl _)⟩

theorem witness_BlockedReadsWaitForACharacter :
    let s := ({ State.reset with pending := some .getc } : State)
    let q := ({ State.reset with pending := some .getc, inQ := [0x00] } : State)
    let u := ({ State.reset with pending := some .in_, inQ := [0x79] } : State)
    (s.run = .running ∧ hostTurn s = some s ∧ s.pending = some .getc ∧ s.inQ = []) ∧
    (q.run = .running ∧ hostTurn q = some q ∧ q.pending = some .getc ∧ q.inQ = 0x00 :: []) ∧
    (u.run = .running ∧ hostTurn u = some u ∧ u.pending = some .in_ ∧ u.inQ = 0x79 :: []) := by decide

theorem witness_OnlyTheHostStopsAStep : step { State.reset with host := ⟨[.kill], []⟩ } = .fault .hostKill := rfl

theorem witness_OutputOnlyGrowsAndOnlyByTrap :
    (∃ t, step (State.reset.withFetchWord 16 0xF021) = .next t) ∧
    (∃ t, exec (.ld 0 0) State.reset = .next t ∧ isTrap (.ld 0 0) = false) := ⟨⟨_, rfl⟩, ⟨_, rfl, rfl⟩⟩

theorem witness_InputIsTakenInOrder :
    ∃ t, step { State.reset.withFetchWord 16 0xF020 with inQ := [0x41], host := ⟨[.append [0x42]], []⟩ } = .next t := ⟨_, rfl⟩

theorem witness_OutputNeverAffectsExecution :
    (∃ t, step (State.reset.withFetchWord 16 0xF025) = .next t) ∧
    (∃ f, step { State.reset with host := ⟨[.kill], []⟩ } = .fault f) := ⟨⟨_, rfl⟩, ⟨_, rfl⟩⟩

/-- A state inside PUTS, with memory listed and the host about to type. -/
def midPuts : State :=
  { start #v[0x4000, 0, 0, 0, 0, 0, 0, 0x3001] [(0x3000, 0xF022), (0x4000, 0x0041)] with
    pc := 0x3001, pending := some (.puts 0x4000), host := ⟨[.append [0x42]], []⟩ }

theorem witness_StepKeepsTheStateWellFormed : midPuts.Inv ∧ ∃ t, step midPuts = .next t :=
  ⟨⟨by decide, fun _ => rfl, fun _ => by decide, fun a h => by injection h with h; injection h with h; subst h; decide,
    fun a h => by injection h with h; cases h⟩, ⟨_, rfl⟩⟩

theorem witness_RunsStayWellFormed :
    ∃ s t, launch config.regReset [] HostPlan.idle [some [0x30, 0x00, 0xF0, 0x25]] = some s ∧ step s = .next t ∧ Reaches s t :=
  ⟨_, _, rfl, rfl, .head rfl (.refl _)⟩

theorem witness_StringsEndOnceInputRunsDry :
    let s := ({ midPuts with host := HostPlan.idle, inQ := [0x41] } : State)
    let u := ({ s with pending := some (.putsp 0xFE01) } : State)
    (s.run = .running ∧ s.host = HostPlan.idle ∧ s.pending = some (.puts 0x4000)) ∧
    (u.run = .running ∧ u.host = HostPlan.idle ∧ u.pending = some (.putsp 0xFE01)) := by decide

theorem witness_DecodeInvertsEncode : (Instr.br true true true 0x100).WellFormed ∧ (Instr.trapUndefined 0xFF).WellFormed := by
  decide

theorem witness_DecodeReadsAllButTheIgnoredBits :
    (0x9000#16) &&& (decode 0x9000).readBits = (0x903F#16) &&& (decode 0x9000).readBits := by decide

/-- A machine inside PUTS or PUTSP, no zero word in memory, and a host that types `A` before each step, for ever. -/
def endlessIn (r : Routine) (m : Memory) : State :=
  { start (oneReg 0 0x4000) m with pending := some r, host := ⟨[], [.append [0x41]]⟩ }

theorem endlessIn_peek (r : Routine) (ks : List Nat) (w : Word) (hk : ∀ a : Word, a.toNat ∈ ks) (hw : w ≠ 0) (a : Word) :
    (endlessIn r (constantMemory ks w)).peek a ≠ 0 := by
  show Memory.read (constantMemory ks w) a.toNat ≠ 0
  rw [constantMemory, Memory.read_map_const ks w a.toNat (hk a)]
  exact hw

theorem witness_EndlessStringsNeverEnd : ∃ m, ∀ r, r = .puts 0x4000 ∨ r = .putsp 0x4000 →
    (endlessIn r m).run = .running ∧
    ((endlessIn r m).pending = some (.puts 0x4000) ∨ (endlessIn r m).pending = some (.putsp 0x4000)) ∧
    (∀ b, b ≠ config.kbsrAddr → (endlessIn r m).peek b ≠ 0) ∧ (∀ c ∈ (endlessIn r m).inQ, c ≠ 0) ∧
    (endlessIn r m).host.forever ≠ [] ∧
    (∀ h ∈ (endlessIn r m).host.once ++ (endlessIn r m).host.forever,
      ∃ bytes, h = .append bytes ∧ bytes ≠ [] ∧ ∀ c ∈ bytes, c ≠ 0) := by
  refine ⟨constantMemory (List.range 65536) 0x0101, fun r hr => ⟨rfl, ?_, ?_, ?_, List.cons_ne_nil _ _, ?_⟩⟩
  · rcases hr with rfl | rfl
    · exact Or.inl rfl
    · exact Or.inr rfl
  · exact fun b _ => endlessIn_peek r (List.range 65536) 0x0101 (fun a => List.mem_range.mpr a.isLt) (by decide) b
  · intro c hc; cases hc
  · intro h hm
    rcases List.mem_singleton.mp hm with rfl
    exact ⟨[0x41], rfl, List.cons_ne_nil _ _, by decide⟩

end Sys2Proof.Tests
end

section
/-! PROOFS. The statements of 00_scope.md: sign extension (R8) and the values of the parameters (R5, R6). -/

namespace Sys2Proof.Machine

/-! ### Sign extension of a field of at most 16 bits (R8) -/

section
variable {n : Nat} (f : BitVec n) (hn : n ≤ 16)
include hn

theorem sext16_toInt : (sext16 f).toInt = f.toInt :=
  BitVec.toInt_signExtend_of_le hn

/-- R8's formula: the bits above a set sign bit add `65536 - 2 ^ n`, and nothing is lost modulo 65536. -/
theorem sext16_toNat : (sext16 f).toNat = f.toNat + if f.msb then 65536 - 2 ^ n else 0 := by
  have hfield : f.toNat % 65536 = f.toNat :=
    Nat.mod_eq_of_lt (Nat.lt_of_lt_of_le f.isLt (Nat.pow_le_pow_right Nat.two_pos hn))
  rw [sext16, BitVec.toNat_signExtend, BitVec.toNat_setWidth, hfield]

end

/-- Settles O1: the library's law of `signExtend`, and the formula split by the sign bit. -/
theorem signExtensionKeepsTheSignedValue : Obligations.SignExtensionKeepsTheSignedValue := by
  intro n f _ hn
  refine ⟨sext16_toInt f hn, fun hpos => ?_, fun hneg => ?_⟩
  · simp [sext16_toNat f hn, hpos]
  · simp [sext16_toNat f hn, hneg]

/-! ### The values of the parameters (R5, R6) -/

/-- D13: the bytes are the text that the spec prints, its last space included. -/
theorem promptBytes_eq_text : promptBytes.map BitVec.toNat = "Enter a character: ".toList.map Char.toNat := by
  decide

/-- Settles O57: every conjunct but the prompt's reads a field of `config`; the prompt's is `promptBytes_eq_text`. -/
theorem parametersHaveTheDecidedValues : Obligations.ParametersHaveTheDecidedValues :=
  ⟨rfl, rfl, rfl, rfl, rfl, rfl, rfl, rfl, rfl, rfl, rfl, rfl, rfl, rfl, rfl, promptBytes_eq_text⟩

end Sys2Proof.Machine
end

section
/-! PROOFS. The encoder's formats, field by field, and the decoder's answer for the word of every well-formed
instruction (30_encoding.md R61, R62, R64). -/

namespace Sys2Proof

/-! ### A placed field, read back -/

@[simp] theorem extractLsb'_place_same {n : Nat} (f : BitVec n) (lo : Nat) (h : lo + n ≤ 16) :
    (place f lo).extractLsb' lo n = f := by
  ext k hk
  have hin : lo + k < 16 := by omega
  simp [place, hin, hk]

@[simp] theorem getElem_place_disjoint {m : Nat} (f : BitVec m) (lo k : Nat) (hk : k < 16) (h : k < lo ∨ lo + m ≤ k) :
    (place f lo)[k] = false := by
  rcases h with h | h
  · simp [place, h]
  · have habove : m ≤ k - lo := by omega
    simp [place, BitVec.getLsbD_of_ge f _ habove]

@[simp] theorem extractLsb'_place_disjoint {m : Nat} (f : BitVec m) (lo start len : Nat)
    (h : start + len ≤ lo ∨ lo + m ≤ start) : (place f lo).extractLsb' start len = 0 := by
  ext k hk
  by_cases hin : start + k < 16
  · have hout : start + k < lo ∨ lo + m ≤ start + k := by omega
    simp [BitVec.getLsbD_eq_getElem hin, hout]
  · simp [BitVec.getLsbD_of_ge _ _ (Nat.le_of_not_lt hin)]

@[simp] theorem getElem_placeBit_same (b : Bool) (k : Nat) (h : k < 16) : (placeBit b k)[k] = b := by
  simp [placeBit, place]

@[simp] theorem getElem_placeBit_other (b : Bool) (lo k : Nat) (hk : k < 16) (h : k ≠ lo) :
    (placeBit b lo)[k] = false :=
  getElem_place_disjoint _ lo k hk (by omega)

@[simp] theorem extractLsb'_placeBit (b : Bool) (lo start len : Nat) (h : start + len ≤ lo ∨ lo < start) :
    (placeBit b lo).extractLsb' start len = 0 :=
  extractLsb'_place_disjoint _ lo start len (by omega)

/-! ### The formats (R62): what each field of an encoded word holds -/

section
variable (op : Opcode) (r r' r'' : Reg) (imm : BitVec 5) (off6 : BitVec 6) (off9 : BitVec 9) (off11 : BitVec 11)
  (n z p : Bool) (v : Byte)

theorem encodeRR_eq : encodeRR op r r' r'' =
    place op 12 ||| place r 9 ||| place r' 6 ||| placeBit false 5 ||| place r'' 0 := rfl
theorem encodeRI_eq : encodeRI op r r' imm =
    place op 12 ||| place r 9 ||| place r' 6 ||| placeBit true 5 ||| place imm 0 := rfl
theorem encodePcRel_eq : encodePcRel op r off9 = place op 12 ||| place r 9 ||| place off9 0 := rfl
theorem encodeBaseOff_eq : encodeBaseOff op r r' off6 = place op 12 ||| place r 9 ||| place r' 6 ||| place off6 0 := rfl
theorem encodeTrap_eq : encodeTrap v = place config.opTrap 12 ||| place v 0 := rfl
theorem encode_br : encode (.br n z p off9) =
    place config.opBr 12 ||| placeBit n 11 ||| placeBit z 10 ||| placeBit p 9 ||| place off9 0 := rfl
theorem encode_jsr : encode (.jsr off11) = place config.opJsr 12 ||| placeBit true 11 ||| place off11 0 := rfl
theorem encode_jsrr : encode (.jsrr r) = place config.opJsr 12 ||| placeBit false 11 ||| place r 6 := rfl
theorem encode_not : encode (.not r r') =
    place config.opNot 12 ||| place r 9 ||| place r' 6 ||| place 0b111111#6 0 := rfl
theorem encode_jmp : encode (.jmp r) = place config.opJmp 12 ||| place r 6 := rfl

@[simp] theorem opcodeOf_encodeRR : opcodeOf (encodeRR op r r' r'') = op := by
  simp [opcodeOf_eq, encodeRR_eq, BitVec.extractLsb'_or]
@[simp] theorem fieldDR_encodeRR : fieldDR (encodeRR op r r' r'') = r := by
  simp [fieldDR_eq, encodeRR_eq, BitVec.extractLsb'_or]
@[simp] theorem fieldSR1_encodeRR : fieldSR1 (encodeRR op r r' r'') = r' := by
  simp [fieldSR1_eq, encodeRR_eq, BitVec.extractLsb'_or]
@[simp] theorem fieldSR2_encodeRR : fieldSR2 (encodeRR op r r' r'') = r'' := by
  simp [fieldSR2_eq, encodeRR_eq, BitVec.extractLsb'_or]
@[simp] theorem fieldM_encodeRR : fieldM (encodeRR op r r' r'') = false := by simp [fieldM_eq, encodeRR_eq]

@[simp] theorem opcodeOf_encodeRI : opcodeOf (encodeRI op r r' imm) = op := by
  simp [opcodeOf_eq, encodeRI_eq, BitVec.extractLsb'_or]
@[simp] theorem fieldDR_encodeRI : fieldDR (encodeRI op r r' imm) = r := by
  simp [fieldDR_eq, encodeRI_eq, BitVec.extractLsb'_or]
@[simp] theorem fieldSR1_encodeRI : fieldSR1 (encodeRI op r r' imm) = r' := by
  simp [fieldSR1_eq, encodeRI_eq, BitVec.extractLsb'_or]
@[simp] theorem fieldImm5_encodeRI : fieldImm5 (encodeRI op r r' imm) = imm := by
  simp [fieldImm5_eq, encodeRI_eq, BitVec.extractLsb'_or]
@[simp] theorem fieldM_encodeRI : fieldM (encodeRI op r r' imm) = true := by simp [fieldM_eq, encodeRI_eq]

@[simp] theorem opcodeOf_encodePcRel : opcodeOf (encodePcRel op r off9) = op := by
  simp [opcodeOf_eq, encodePcRel_eq, BitVec.extractLsb'_or]
@[simp] theorem fieldDR_encodePcRel : fieldDR (encodePcRel op r off9) = r := by
  simp [fieldDR_eq, encodePcRel_eq, BitVec.extractLsb'_or]
@[simp] theorem fieldPCoffset9_encodePcRel : fieldPCoffset9 (encodePcRel op r off9) = off9 := by
  simp [fieldPCoffset9_eq, encodePcRel_eq, BitVec.extractLsb'_or]

@[simp] theorem opcodeOf_encodeBaseOff : opcodeOf (encodeBaseOff op r r' off6) = op := by
  simp [opcodeOf_eq, encodeBaseOff_eq, BitVec.extractLsb'_or]
@[simp] theorem fieldDR_encodeBaseOff : fieldDR (encodeBaseOff op r r' off6) = r := by
  simp [fieldDR_eq, encodeBaseOff_eq, BitVec.extractLsb'_or]
@[simp] theorem fieldSR1_encodeBaseOff : fieldSR1 (encodeBaseOff op r r' off6) = r' := by
  simp [fieldSR1_eq, encodeBaseOff_eq, BitVec.extractLsb'_or]
@[simp] theorem fieldOffset6_encodeBaseOff : fieldOffset6 (encodeBaseOff op r r' off6) = off6 := by
  simp [fieldOffset6_eq, encodeBaseOff_eq, BitVec.extractLsb'_or]

@[simp] theorem opcodeOf_encodeTrap : opcodeOf (encodeTrap v) = config.opTrap := by
  simp [opcodeOf_eq, encodeTrap_eq, BitVec.extractLsb'_or]
@[simp] theorem fieldTrapvect8_encodeTrap : fieldTrapvect8 (encodeTrap v) = v := by
  simp [fieldTrapvect8_eq, encodeTrap_eq, BitVec.extractLsb'_or]

/-! ### What the decoder answers for an encoded word -/

theorem decode_encode_br : decode (encode (.br n z p off9)) = .br n z p off9 := by
  have hop : opcodeOf (encode (.br n z p off9)) = config.opBr := by
    simp [opcodeOf_eq, encode_br, BitVec.extractLsb'_or]
  rw [decode_br _ hop]
  simp [fieldN_eq, fieldZ_eq, fieldP_eq, fieldPCoffset9_eq, encode_br, BitVec.extractLsb'_or]

theorem decode_encode_jsr : decode (encode (.jsr off11)) = .jsr off11 := by
  have hop : opcodeOf (encode (.jsr off11)) = config.opJsr := by
    simp [opcodeOf_eq, encode_jsr, BitVec.extractLsb'_or]
  have hl : fieldL (encode (.jsr off11)) = true := by simp [fieldL_eq, encode_jsr]
  rw [decode_jsr _ hop hl]
  simp [fieldPCoffset11_eq, encode_jsr, BitVec.extractLsb'_or]

theorem decode_encode_jsrr : decode (encode (.jsrr r)) = .jsrr r := by
  have hop : opcodeOf (encode (.jsrr r)) = config.opJsr := by
    simp [opcodeOf_eq, encode_jsrr, BitVec.extractLsb'_or]
  have hl : fieldL (encode (.jsrr r)) = false := by simp [fieldL_eq, encode_jsrr]
  rw [decode_jsrr _ hop hl]
  simp [fieldSR1_eq, encode_jsrr, BitVec.extractLsb'_or]

theorem decode_encode_not : decode (encode (.not r r')) = .not r r' := by
  have hop : opcodeOf (encode (.not r r')) = config.opNot := by
    simp [opcodeOf_eq, encode_not, BitVec.extractLsb'_or]
  rw [decode_not _ hop]
  simp [fieldDR_eq, fieldSR1_eq, encode_not, BitVec.extractLsb'_or]

theorem decode_encode_jmp : decode (encode (.jmp r)) = .jmp r := by
  have hop : opcodeOf (encode (.jmp r)) = config.opJmp := by
    simp [opcodeOf_eq, encode_jmp, BitVec.extractLsb'_or]
  rw [decode_jmp _ hop]
  simp [fieldSR1_eq, encode_jmp, BitVec.extractLsb'_or]

theorem decode_encodeTrap : decode (encodeTrap v) = refineTrap v := by
  rw [decode_trap _ (opcodeOf_encodeTrap v), fieldTrapvect8_encodeTrap]

end

theorem ne_vectors_of_undefined {v : Byte} (h : v ∉ definedVectors) :
    v ≠ config.tvGetc ∧ v ≠ config.tvOut ∧ v ≠ config.tvPuts ∧ v ≠ config.tvIn ∧ v ≠ config.tvPutsp ∧
      v ≠ config.tvHalt := by
  simpa only [definedVectors, List.mem_cons, List.not_mem_nil, or_false, not_or] using h

theorem refineTrap_undefined (v : Byte) (h : v ∉ definedVectors) : refineTrap v = .trapUndefined v := by
  obtain ⟨hgetc, hout, hputs, hin, hputsp, hhalt⟩ := ne_vectors_of_undefined h
  simp only [refineTrap, if_neg hgetc, if_neg hout, if_neg hputs, if_neg hin, if_neg hputsp, if_neg hhalt]

theorem trapUndefined_wellFormed_iff (v : Byte) : (Instr.trapUndefined v).WellFormed ↔ v ∉ definedVectors := by
  simp [Instr.WellFormed, Instr.wellFormed]

/-- R64: the decoder answers each well-formed instruction for its own word. -/
theorem decode_encode (i : Instr) (h : i.WellFormed) : decode (encode i) = i := by
  cases i with
  | br n z p off => exact decode_encode_br off n z p
  | addReg dr sr1 sr2 => simp [encode, decode_addReg]
  | addImm dr sr1 imm => simp [encode, decode_addImm]
  | ld dr off => simp [encode, decode_ld]
  | st sr off => simp [encode, decode_st]
  | jsr off => exact decode_encode_jsr off
  | jsrr base => exact decode_encode_jsrr base
  | andReg dr sr1 sr2 => simp [encode, decode_andReg]
  | andImm dr sr1 imm => simp [encode, decode_andImm]
  | ldr dr base off => simp [encode, decode_ldr]
  | str sr base off => simp [encode, decode_str]
  | reservedA => rfl
  | not dr sr => exact decode_encode_not dr sr
  | ldi dr off => simp [encode, decode_ldi]
  | sti sr off => simp [encode, decode_sti]
  | jmp base => exact decode_encode_jmp base
  | reservedB => rfl
  | lea dr off => simp [encode, decode_lea]
  | trap v => cases h
  | getc => rfl
  | out => rfl
  | puts => rfl
  | in_ => rfl
  | putsp => rfl
  | halt => rfl
  | trapUndefined v =>
    exact (decode_encodeTrap v).trans (refineTrap_undefined v ((trapUndefined_wellFormed_iff v).mp h))

end Sys2Proof
end

section
/-! PROOFS. What a service routine, an instruction and a step can do: the inversion lemmas from which the statements of
10_state.md follow. -/

namespace Sys2Proof.Machine

/-! ### Frames of what touches memory and the streams only -/

/-- The output has grown (R162) and the input queue has lost characters at its head (R161), if they changed at all. -/
structure StreamFlow (s t : State) : Prop where
  out : s.out <+: t.out
  inQ : t.inQ <:+ s.inQ

/-- `t` differs from `s` in memory, the streams, the unfinished routine and the host's plan at most. -/
structure IoFrame (s t : State) : Prop extends StreamFlow s t where
  regs : t.regs = s.regs
  pc : t.pc = s.pc
  cc : t.cc = s.cc
  run : t.run = s.run

theorem StreamFlow.refl (s : State) : StreamFlow s s := ⟨List.prefix_rfl, List.suffix_rfl⟩

theorem StreamFlow.trans {s t u : State} (h : StreamFlow s t) (h' : StreamFlow t u) : StreamFlow s u :=
  ⟨h.out.trans h'.out, h'.inQ.trans h.inQ⟩

theorem IoFrame.refl (s : State) : IoFrame s s := ⟨.refl s, rfl, rfl, rfl, rfl⟩

theorem IoFrame.trans {s t u : State} (h : IoFrame s t) (h' : IoFrame t u) : IoFrame s u :=
  ⟨h.toStreamFlow.trans h'.toStreamFlow, h'.regs.trans h.regs, h'.pc.trans h.pc, h'.cc.trans h.cc, h'.run.trans h.run⟩

theorem IoFrame.x {s t : State} (h : IoFrame s t) (r : Reg) : t.x r = s.x r := by simp [State.x, h.regs]

theorem memRead_io (a : Word) (s : State) : IoFrame s (memRead a s).2 := by
  obtain ⟨taken, htaken⟩ := memRead_inQ a s
  exact ⟨⟨by simp, ⟨taken, htaken.symm⟩⟩, by simp, by simp, by simp, by simp⟩

theorem emit_io (bytes : List Byte) (s : State) : IoFrame s (s.emit bytes) :=
  ⟨⟨⟨bytes, rfl⟩, List.suffix_rfl⟩, rfl, rfl, rfl, rfl⟩

theorem setPending_io (p : Option Routine) (s : State) : IoFrame s (s.setPending p) :=
  ⟨⟨List.prefix_rfl, List.suffix_rfl⟩, rfl, rfl, rfl, rfl⟩

theorem takeHead_io {s : State} {b : Byte} {rest : List Byte} (h : s.inQ = b :: rest) :
    IoFrame s { s with inQ := rest } :=
  ⟨⟨List.prefix_rfl, ⟨[b], h.symm⟩⟩, rfl, rfl, rfl, rfl⟩

/-! ### The service routines -/

/-- What a blocking read of GETC or IN answers: with no character it waits; else it delivers one (R122, R125, R168). -/
inductive ReadsChar (s : State) : State → Prop where
  | wait {t : State} (empty : s.inQ = []) (io : IoFrame s t) : ReadsChar s t
  | deliver {u : State} (b : Byte) (ready : s.inQ ≠ []) (io : IoFrame s u) : ReadsChar s (deliverChar b u)

theorem getcRead_reads (s : State) : ReadsChar s (getcRead s) := by
  cases hq : s.inQ with
  | nil => exact getcRead_wait s hq ▸ .wait hq (setPending_io _ s)
  | cons b rest =>
    exact getcRead_take s b rest hq ▸ .deliver b (by simp [hq]) ((takeHead_io hq).trans (setPending_io _ _))

theorem inRead_reads (s : State) : ReadsChar s (inRead s) := by
  cases hq : s.inQ with
  | nil => exact inRead_wait s hq ▸ .wait hq (setPending_io _ s)
  | cons b rest =>
    exact inRead_take s b rest hq ▸
      .deliver b (by simp [hq]) ((takeHead_io hq).trans ((setPending_io _ _).trans (emit_io _ _)))

/-- What a read answers after output, it answers without it. -/
theorem ReadsChar.of_emit {bytes : List Byte} {s t : State} (h : ReadsChar (s.emit bytes) t) : ReadsChar s t := by
  cases h with
  | wait empty io => exact .wait empty ((emit_io bytes s).trans io)
  | deliver b ready io => exact .deliver b ready ((emit_io bytes s).trans io)

theorem runIn_reads (s : State) : ReadsChar s (runIn s) := (inRead_reads (s.emit config.inPrompt)).of_emit

theorem stringLoop_io (chars : Word → List Byte) (n : Nat) (a : Word) (s : State) :
    IoFrame s (stringLoop chars n a s).2 :=
  stringLoop_keeps (IoFrame s) chars (fun a _ h => h.trans (memRead_io a _))
    (fun bytes _ h => h.trans (emit_io bytes _)) n a s (.refl s)

/-- PUTS is its loop, and then it is unfinished where the loop is. -/
theorem putsFrom_eq (a : Word) (s : State) :
    putsFrom a s = (stringLoop putsChars config.memWords a s).2.setPending
      ((stringLoop putsChars config.memWords a s).1.map .puts) := by
  unfold putsFrom
  split <;> next hloop => rw [hloop]; rfl

/-- PUTSP is its loop, and then it is unfinished where the loop is. -/
theorem putspFrom_eq (a : Word) (s : State) :
    putspFrom a s = (stringLoop putspChars config.memWords a s).2.setPending
      ((stringLoop putspChars config.memWords a s).1.map .putsp) := by
  unfold putspFrom
  split <;> next hloop => rw [hloop]; rfl

theorem putsFrom_io (a : Word) (s : State) : IoFrame s (putsFrom a s) :=
  putsFrom_eq a s ▸ (stringLoop_io _ _ _ _).trans (setPending_io _ _)

theorem putspFrom_io (a : Word) (s : State) : IoFrame s (putspFrom a s) :=
  putspFrom_eq a s ▸ (stringLoop_io _ _ _ _).trans (setPending_io _ _)

theorem trapDispatch_undefined {v : Byte} (h : v ∉ definedVectors) (s : State) : trapDispatch v s = s := by
  obtain ⟨hgetc, hout, hputs, hin, hputsp, hhalt⟩ := ne_vectors_of_undefined h
  simp only [trapDispatch, if_neg hgetc, if_neg hout, if_neg hputs, if_neg hin, if_neg hputsp, if_neg hhalt]

section
variable {s t : State} (h : ReadsChar s t)
include h

theorem ReadsChar.flow : StreamFlow s t := by
  cases h with
  | wait _ io => exact io.toStreamFlow
  | deliver b _ io => exact ⟨io.out, io.inQ⟩

theorem ReadsChar.pc : t.pc = s.pc := by
  cases h with
  | wait _ io => exact io.pc
  | deliver b _ io => exact io.pc

theorem ReadsChar.run : t.run = s.run := by
  cases h with
  | wait _ io => exact io.run
  | deliver b _ io => exact io.run

theorem ReadsChar.x_other {r : Reg} (hr : r ≠ config.trapArgReg) : t.x r = s.x r := by
  cases h with
  | wait _ io => exact io.x r
  | deliver b _ io => rw [deliverChar, writeResult_x_other _ _ _ _ hr, io.x]

theorem ReadsChar.cc_empty (hq : s.inQ = []) : t.cc = s.cc := by
  cases h with
  | wait _ io => exact io.cc
  | deliver b ready _ => exact absurd hq ready

theorem ReadsChar.cc_ready (hq : s.inQ ≠ []) : t.cc = classify (t.x config.trapArgReg) := by
  cases h with
  | wait empty _ => exact absurd empty hq
  | deliver b _ io => simp [deliverChar]

end

/-! ### One instruction -/

/-- The run state an instruction leaves the machine in, where it sets one: HALT and the reserved opcodes (R25). -/
def endsRun : Instr → Option RunState
  | .halt => some .halted
  | .trap v => if v = config.tvHalt then some .halted else none
  | .reservedA | .reservedB => some .aborted
  | .br _ _ _ _ | .addReg _ _ _ | .addImm _ _ _ | .ld _ _ | .st _ _ | .jsr _ | .jsrr _ | .andReg _ _ _ | .andImm _ _ _
  | .ldr _ _ _ | .str _ _ _ | .not _ _ | .ldi _ _ | .sti _ _ | .jmp _ | .lea _ _ | .getc | .out | .puts | .in_ | .putsp
  | .trapUndefined _ => none

/-- The nine ways in which an instruction changes the state, each with what the claims' vocabulary says of an
instruction that acts so. -/
inductive Effect (i : Instr) (s : State) : State → Prop where
  /-- ADD, AND, NOT, the loads, LEA: a flagged register write, after the bus reads of a load. -/
  | result {u : State} (dr : Reg) (v : Word) (io : IoFrame s u) (out : u.out = s.out)
      (flag : flagSource i = some dr := by rfl) (written : dr ∈ writtenRegs i := by exact List.mem_cons_self)
      (noBlock : blocksForInput i = false := by rfl) (goesOn : endsRun i = none := by rfl) :
      Effect i s (writeResult dr v u)
  /-- The stores: a write of memory, after the pointer read of STI. -/
  | store {u : State} (a v : Word) (io : IoFrame s u) (out : u.out = s.out)
      (flag : flagSource i = none := by rfl) (goesOn : endsRun i = none := by rfl) : Effect i s (memWrite a v u)
  /-- BR not taken. -/
  | stay (flag : flagSource i = none := by rfl) (goesOn : endsRun i = none := by rfl) : Effect i s s
  /-- BR taken, JMP. -/
  | jump (v : Word) (moves : movesPc i s = true) (flag : flagSource i = none := by rfl)
      (goesOn : endsRun i = none := by rfl) : Effect i s (s.setPc v)
  /-- JSR, JSRR. -/
  | call (v : Word) (moves : movesPc i s = true := by rfl) (flag : flagSource i = none := by rfl)
      (link : config.linkReg ∈ writtenRegs i := by exact List.mem_cons_self) (goesOn : endsRun i = none := by rfl) :
      Effect i s ((saveLink s).setPc v)
  /-- The reserved opcodes. -/
  | abort (flag : flagSource i = none := by rfl) (aborts : endsRun i = some .aborted := by rfl) :
      Effect i s (raiseIllegalOpcode s)
  /-- OUT, PUTS, PUTSP and the undefined vectors. -/
  | speak {t : State} (io : IoFrame (saveLink s) t) (trap : isTrap i = true := by rfl)
      (flag : flagSource i = none := by rfl) (link : config.linkReg ∈ writtenRegs i := by exact List.mem_cons_self)
      (goesOn : endsRun i = none := by rfl) : Effect i s t
  /-- GETC, IN. -/
  | read {t : State} (reads : ReadsChar (saveLink s) t) (trap : isTrap i = true := by rfl)
      (flag : flagSource i = some config.trapArgReg := by rfl)
      (written : writtenRegs i = [config.linkReg, config.trapArgReg] := by rfl)
      (blocks : blocksForInput i = true := by rfl) (goesOn : endsRun i = none := by rfl) : Effect i s t
  /-- HALT. -/
  | halt {u : State} (io : IoFrame (saveLink s) u) (trap : isTrap i = true := by rfl)
      (flag : flagSource i = none := by rfl) (link : config.linkReg ∈ writtenRegs i := by exact List.mem_cons_self)
      (halts : endsRun i = some .halted := by rfl) : Effect i s (u.setRun .halted)

theorem effect_load {i : Instr} {s u : State} (dr : Reg) (ea : Word) (io : IoFrame s u) (out : u.out = s.out)
    (flag : flagSource i = some dr := by rfl) (written : dr ∈ writtenRegs i := by exact List.mem_cons_self)
    (noBlock : blocksForInput i = false := by rfl) (goesOn : endsRun i = none := by rfl) :
    Effect i s (loadFrom dr ea u) :=
  .result dr _ (io.trans (memRead_io ea u)) ((memRead_out ea u).trans out) flag written noBlock goesOn

theorem effect_br (n z p : Bool) (off : BitVec 9) (s : State) :
    Effect (.br n z p off) s (if branchTaken n z p s.cc then s.setPc (pcRel off s) else s) := by
  split
  · next htaken => exact .jump _ htaken
  · exact .stay

/-- The general TRAP row acts as the row its vector selects (R120). -/
theorem effect_trap (v : Byte) (s : State) : Effect (.trap v) s (trapDispatch v (saveLink s)) :=
  refineTrap_cases (fun v _ => Effect (.trap v) s (trapDispatch v (saveLink s)))
    (getc := .read (getcRead_reads _))
    (out := .speak (emit_io _ _))
    (puts := .speak (putsFrom_io _ _))
    (in_ := .read (runIn_reads _))
    (putsp := .speak (putspFrom_io _ _))
    (halt := .halt (emit_io _ _))
    (undef := fun v hv => by
      obtain ⟨hgetc, -, -, hin, -, hhalt⟩ := ne_vectors_of_undefined hv
      rw [trapDispatch_undefined hv]
      exact .speak (.refl _) rfl (by simp [flagSource, hgetc, hin]) (by simp [writtenRegs, hgetc, hin])
        (if_neg hhalt))
    v

/-- Every instruction changes the state in one of the nine ways. -/
theorem exec_effect {i : Instr} {s t : State} (h : exec i s = .next t) : Effect i s t := by
  have hio := IoFrame.refl s
  cases i with
  | br n z p off => cases h; exact effect_br n z p off s
  | addReg dr sr1 sr2 => cases h; exact .result dr _ hio rfl
  | addImm dr sr1 imm => cases h; exact .result dr _ hio rfl
  | ld dr off => cases h; exact effect_load dr _ hio rfl
  | st sr off => cases h; exact .store _ _ hio rfl
  | jsr off => cases h; exact .call _
  | jsrr base => cases h; exact .call _
  | andReg dr sr1 sr2 => cases h; exact .result dr _ hio rfl
  | andImm dr sr1 imm => cases h; exact .result dr _ hio rfl
  | ldr dr base off => cases h; exact effect_load dr _ hio rfl
  | str sr base off => cases h; exact .store _ _ hio rfl
  | reservedA => cases h; exact .abort
  | not dr sr => cases h; exact .result dr _ hio rfl
  | ldi dr off => cases h; exact effect_load dr _ (memRead_io _ s) (memRead_out _ s)
  | sti sr off => cases h; exact .store _ _ (memRead_io _ s) (memRead_out _ s)
  | jmp base => cases h; exact .jump _ rfl
  | reservedB => cases h; exact .abort
  | lea dr off => cases h; exact .result dr _ hio rfl
  | trap v => cases h; exact effect_trap v s
  | getc => cases h; exact .read (getcRead_reads _)
  | out => cases h; exact .speak (emit_io _ _)
  | puts => cases h; exact .speak (putsFrom_io _ _)
  | in_ => cases h; exact .read (runIn_reads _)
  | putsp => cases h; exact .speak (putspFrom_io _ _)
  | halt => cases h; exact .halt (emit_io _ _)
  | trapUndefined v => cases h; exact .speak (.refl _)

theorem exec_answers (i : Instr) (s : State) : ∃ t, exec i s = .next t := by
  cases i <;> exact ⟨_, rfl⟩

theorem exec_flow {i : Instr} {s t : State} (h : exec i s = .next t) : StreamFlow s t := by
  have hsame := StreamFlow.refl s
  cases exec_effect h with
  | result dr v io => exact ⟨io.out, io.inQ⟩
  | store a v io => exact ⟨io.out, io.inQ⟩
  | stay => exact hsame
  | jump v => exact ⟨hsame.out, hsame.inQ⟩
  | call v => exact ⟨hsame.out, hsame.inQ⟩
  | abort => exact ⟨hsame.out, hsame.inQ⟩
  | speak io => exact ⟨io.out, io.inQ⟩
  | read reads => exact ⟨reads.flow.out, reads.flow.inQ⟩
  | halt io => exact ⟨io.out, io.inQ⟩

theorem exec_run {i : Instr} {s t : State} (h : exec i s = .next t) : t.run = (endsRun i).getD s.run := by
  cases exec_effect h with
  | result dr v io out flag written noBlock goesOn => simp [goesOn, io.run]
  | store a v io out flag goesOn => simp [goesOn, memWrite, io.run]
  | stay flag goesOn => simp [goesOn]
  | jump v moves flag goesOn => simp [goesOn]
  | call v moves flag link goesOn => simp [goesOn]
  | abort flag aborts => simp [aborts, raiseIllegalOpcode]
  | speak io trap flag link goesOn => simp [goesOn, io.run]
  | read reads trap flag written blocks goesOn => simp [goesOn, reads.run]
  | halt io trap flag link halts => simp [halts]

/-! ### An unfinished routine -/

theorem resume_flow (r : Routine) (s : State) : StreamFlow s (resume r s) := by
  cases r with
  | getc => exact (getcRead_reads s).flow
  | in_ => exact (inRead_reads s).flow
  | puts a => exact (putsFrom_io a s).toStreamFlow
  | putsp a => exact (putspFrom_io a s).toStreamFlow

theorem resume_run (r : Routine) (s : State) : (resume r s).run = s.run := by
  cases r with
  | getc => exact (getcRead_reads s).run
  | in_ => exact (inRead_reads s).run
  | puts a => exact (putsFrom_io a s).run
  | putsp a => exact (putspFrom_io a s).run

/-! ### The host's turn -/

theorem hostTurn_eq {s u : State} (h : hostTurn s = some u) : u = { s with inQ := u.inQ, host := u.host } := by
  rcases hostTurn_cases s u h with rfl | ⟨bytes, plan, -, rfl⟩ <;> rfl

theorem hostTurn_run {s u : State} (h : hostTurn s = some u) : u.run = s.run := by rw [hostTurn_eq h]

theorem hostTurn_out {s u : State} (h : hostTurn s = some u) : u.out = s.out := by rw [hostTurn_eq h]

/-- While the machine runs, the queue gets what `arrivals` says (R28). -/
theorem hostTurn_inQ {s u : State} (hrun : s.run = .running) (h : hostTurn s = some u) :
    u.inQ = s.inQ ++ arrivals s := by
  unfold hostTurn at h
  unfold arrivals
  rw [hrun]
  split at h
  · next hmove => cases h; simp [hmove]
  · next bytes plan hmove => cases h; simp [hmove]
  · next plan hmove =>
    split at h
    · cases h
    · cases h; simp [hmove]

theorem hostTurn_idle {s : State} (h : s.host = HostPlan.idle) : hostTurn s = some s := by simp [hostTurn, h]

theorem hostTurn_append {s : State} {bytes : List Byte} {plan : HostPlan}
    (h : nextMove s.host = some (.append bytes, plan)) :
    hostTurn s = some { s with inQ := s.inQ ++ bytes, host := plan } := by simp [hostTurn, h]

/-! ### One step, by the machine's condition (R30, R168, R169) -/

theorem fetch_eq (s : State) : fetch s = ((memRead s.pc s).1, (memRead s.pc s).2.setPc (s.pc + 1)) := by
  simp [fetch]

theorem fetch_run (s : State) : (fetch s).2.run = s.run := by simp [fetch_eq]

theorem fetch_flow (s : State) : StreamFlow s (fetch s).2 := by
  rw [fetch_eq]
  exact ⟨(memRead_io s.pc s).out, (memRead_io s.pc s).inQ⟩

theorem step_terminal {s : State} (h : s.run ≠ .running) : step s = .next s := by
  cases hrun : s.run with
  | running => exact absurd hrun h
  | halted => simp only [step, hrun]
  | aborted => simp only [step, hrun]

section
variable {s u : State} (hrun : s.run = .running)
include hrun

theorem step_killed (hturn : hostTurn s = none) : step s = .fault .hostKill := by
  simp only [step, hrun, hturn]

theorem step_resumes {r : Routine} (hturn : hostTurn s = some u) (hpending : u.pending = some r) :
    step s = .next (resume r u) := by
  simp only [step, hrun, hturn, hpending]

theorem step_fetches (hturn : hostTurn s = some u) (hpending : u.pending = none) :
    step s = exec (decode (fetch u).1) (fetch u).2 := by
  simp only [step, hrun, hturn, hpending]

end

/-- The three ways in which a step answers a next state. -/
inductive StepCase (s t : State) : Prop where
  /-- A terminal machine stays as it is (R169). -/
  | terminal (stopped : s.run ≠ .running) (same : t = s)
  /-- The machine goes on with an unfinished routine (R168). -/
  | resumes {u : State} {r : Routine} (running : s.run = .running) (turn : hostTurn s = some u)
      (inside : u.pending = some r) (ends : t = resume r u)
  /-- The machine runs a cycle (R30). -/
  | fetches {u : State} (running : s.run = .running) (turn : hostTurn s = some u) (inside : u.pending = none)
      (ends : exec (decode (fetch u).1) (fetch u).2 = .next t)

theorem step_cases {s t : State} (h : step s = .next t) : StepCase s t := by
  by_cases hrun : s.run = .running
  · cases hturn : hostTurn s with
    | none => rw [step_killed hrun hturn] at h; cases h
    | some u =>
      cases hpending : u.pending with
      | none => exact .fetches hrun hturn hpending (step_fetches hrun hturn hpending ▸ h)
      | some r => rw [step_resumes hrun hturn hpending] at h; cases h; exact .resumes hrun hturn hpending rfl
  · rw [step_terminal hrun] at h; cases h; exact .terminal hrun rfl

/-- A step stops with a fault only where the host ends a running machine (R155). -/
theorem step_fault {s : State} {f : Fault} (h : step s = .fault f) :
    s.run = .running ∧ hostTurn s = none ∧ f = .hostKill := by
  by_cases hrun : s.run = .running
  · cases hturn : hostTurn s with
    | none => rw [step_killed hrun hturn] at h; cases h; exact ⟨hrun, rfl, rfl⟩
    | some u =>
      cases hpending : u.pending with
      | none =>
        obtain ⟨t, ht⟩ := exec_answers (decode (fetch u).1) (fetch u).2
        rw [step_fetches hrun hturn hpending, ht] at h
        cases h
      | some r => rw [step_resumes hrun hturn hpending] at h; cases h
  · rw [step_terminal hrun] at h; cases h

/-- While the machine runs, a step is the host's turn and then what makes the streams flow. -/
theorem step_flow {s t : State} (hrun : s.run = .running) (h : step s = .next t) :
    ∃ u, hostTurn s = some u ∧ StreamFlow u t := by
  cases step_cases h with
  | terminal stopped => exact absurd hrun stopped
  | @resumes u r _ turn _ ends => exact ⟨u, turn, ends ▸ resume_flow r u⟩
  | @fetches u _ turn _ ends => exact ⟨u, turn, (fetch_flow u).trans (exec_flow ends)⟩

end Sys2Proof.Machine
end

section
/-! PROOFS. The statements of 10_state.md: flags, registers, pc, run state, streams, memory as data, reset, cycle. -/

namespace Sys2Proof.Machine

/-! ### Flags, registers, pc (R20 to R24) -/

theorem updateFlags_eq (r : Reg) (s : State) : updateFlags r s = { s with cc := classify (s.x r) } := rfl

theorem classify_zero {v : Word} (h : v = 0) : classify v = .zero := by simp [classify, h]

theorem classify_negative {v : Word} (h : v ≠ 0) (hbit : v.getLsbD 15 = true) : classify v = .negative := by
  have hmsb : v.msb = true := (BitVec.msb_eq_getLsbD_last v).trans hbit
  rw [classify, if_neg h, if_pos hmsb]

theorem classify_positive {v : Word} (h : v ≠ 0) (hbit : v.getLsbD 15 = false) : classify v = .positive := by
  have hmsb : v.msb = false := (BitVec.msb_eq_getLsbD_last v).trans hbit
  rw [classify, if_neg h, if_neg (by simp [hmsb])]

theorem exec_cc_unflagged {i : Instr} {s t : State} (h : exec i s = .next t) (hnone : flagSource i = none) :
    t.cc = s.cc := by
  cases exec_effect h with
  | result dr v io out flag => cases hnone ▸ flag
  | store a v io => exact io.cc
  | stay => rfl
  | jump v => rfl
  | call v => rfl
  | abort => rfl
  | speak io => exact io.cc
  | read reads trap flag => cases hnone ▸ flag
  | halt io => exact io.cc

/-- The flag-setting instructions: at once, or, for one that waits for a character, not yet (R168). -/
theorem exec_cc_flagged {i : Instr} {s t : State} {r : Reg} (h : exec i s = .next t) (hsome : flagSource i = some r) :
    (blocksForInput i = true → s.inQ = [] → t.cc = s.cc) ∧
    (blocksForInput i = false ∨ s.inQ ≠ [] → t.cc = classify (t.x r)) := by
  cases exec_effect h with
  | result dr v io out flag written noBlock =>
    cases hsome ▸ flag
    exact ⟨fun hblock => by simp [noBlock] at hblock, fun _ => by simp⟩
  | read reads trap flag written blocks =>
    cases hsome ▸ flag
    exact ⟨fun _ hq => reads.cc_empty hq, fun hready => reads.cc_ready (by simpa [blocks] using hready)⟩
  | store a v io out flag => cases hsome ▸ flag
  | stay flag => cases hsome ▸ flag
  | jump v moves flag => cases hsome ▸ flag
  | call v moves flag => cases hsome ▸ flag
  | abort flag => cases hsome ▸ flag
  | speak io trap flag => cases hsome ▸ flag
  | halt io trap flag => cases hsome ▸ flag

/-- Settles O2: `updateFlags` by the three cases of `classify`, the instructions by the ways they act. -/
theorem flagsClassifyTheLastFlaggedResult : Obligations.FlagsClassifyTheLastFlaggedResult :=
  ⟨fun r s => ⟨_, updateFlags_eq r s, rfl, classify_zero, classify_negative, classify_positive⟩,
    fun _ _ _ h => ⟨exec_cc_unflagged h, fun _ => exec_cc_flagged h⟩⟩

theorem saveLink_x_of_not_mem {ds : List Reg} (hlink : config.linkReg ∈ ds) {r : Reg} (hr : r ∉ ds) (s : State) :
    (saveLink s).x r = s.x r :=
  saveLink_x_other s r (ne_of_mem_of_not_mem hlink hr).symm

theorem exec_regs {i : Instr} {s t : State} (h : exec i s = .next t) : SameRegsExcept (writtenRegs i) s t := by
  intro r hr
  cases exec_effect h with
  | result dr v io out flag written =>
    rw [writeResult_x_other _ _ _ _ (ne_of_mem_of_not_mem written hr).symm, io.x]
  | store a v io => exact io.x r
  | stay => rfl
  | jump v => rfl
  | call v moves flag link => exact saveLink_x_of_not_mem link hr s
  | abort => rfl
  | speak io trap flag link => rw [io.x, saveLink_x_of_not_mem link hr]
  | read reads trap flag written =>
    obtain ⟨hlink, harg⟩ : r ≠ config.linkReg ∧ r ≠ config.trapArgReg := by simpa [written] using hr
    rw [reads.x_other harg, saveLink_x_other s r hlink]
  | halt io trap flag link => rw [setRun_x, io.x, saveLink_x_of_not_mem link hr]

/-- Settles O3: read after write for the register file, and the frame of each way an instruction acts. -/
theorem registersChangeOnlyWhereWritten : Obligations.RegistersChangeOnlyWhereWritten :=
  ⟨setX_x, fun _ _ _ => exec_regs⟩

/-- Settles O4: of the ways an instruction acts, only jumps and calls set the pc. -/
theorem onlyJumpsMoveThePc : Obligations.OnlyJumpsMoveThePc := by
  intro i s t h hstays
  cases exec_effect h with
  | result dr v io => exact io.pc
  | store a v io => exact io.pc
  | stay => rfl
  | jump v moves => simp [hstays] at moves
  | call v moves => simp [hstays] at moves
  | abort => rfl
  | speak io => exact io.pc
  | read reads => exact reads.pc
  | halt io => exact io.pc

/-! ### The run state (R25) -/

theorem opcode_ordinary : ∀ op : Opcode, op ≠ config.opResA → op ≠ config.opResB → op ≠ config.opTrap →
    op = config.opBr ∨ op = config.opAdd ∨ op = config.opLd ∨ op = config.opSt ∨ op = config.opJsr ∨ op = config.opAnd ∨
    op = config.opLdr ∨ op = config.opStr ∨ op = config.opNot ∨ op = config.opLdi ∨ op = config.opSti ∨
    op = config.opJmp ∨ op = config.opLea := by decide

theorem endsRun_decode_ordinary {w : Word} (hA : opcodeOf w ≠ config.opResA) (hB : opcodeOf w ≠ config.opResB)
    (hT : opcodeOf w ≠ config.opTrap) : endsRun (decode w) = none := by
  rcases opcode_ordinary _ hA hB hT with h | h | h | h | h | h | h | h | h | h | h | h | h
  · rw [decode_br w h]; rfl
  · cases hm : fieldM w with
    | false => rw [decode_addReg w h hm]; rfl
    | true => rw [decode_addImm w h hm]; rfl
  · rw [decode_ld w h]; rfl
  · rw [decode_st w h]; rfl
  · cases hl : fieldL w with
    | false => rw [decode_jsrr w h hl]; rfl
    | true => rw [decode_jsr w h hl]; rfl
  · cases hm : fieldM w with
    | false => rw [decode_andReg w h hm]; rfl
    | true => rw [decode_andImm w h hm]; rfl
  · rw [decode_ldr w h]; rfl
  · rw [decode_str w h]; rfl
  · rw [decode_not w h]; rfl
  · rw [decode_ldi w h]; rfl
  · rw [decode_sti w h]; rfl
  · rw [decode_jmp w h]; rfl
  · rw [decode_lea w h]; rfl

theorem endsRun_refineTrap (v : Byte) :
    endsRun (refineTrap v) = if v = config.tvHalt then some .halted else none :=
  refineTrap_cases (fun v i => endsRun i = if v = config.tvHalt then some .halted else none) rfl rfl rfl rfl rfl rfl
    (fun _ hv => by
      obtain ⟨-, -, -, -, -, hhalt⟩ := ne_vectors_of_undefined hv
      exact (if_neg hhalt).symm) v

theorem endsRun_decode_trap {w : Word} (h : opcodeOf w = config.opTrap) :
    endsRun (decode w) = if fieldTrapvect8 w = config.tvHalt then some .halted else none := by
  rw [decode_trap w h, endsRun_refineTrap]

theorem endsRun_decode_reserved {w : Word} (h : opcodeOf w = config.opResA ∨ opcodeOf w = config.opResB) :
    endsRun (decode w) = some .aborted := by
  rcases h with h | h
  · rw [decode_reservedA w h]; rfl
  · rw [decode_reservedB w h]; rfl

/-- Which words end the run, and how (R25): a TRAP's by its vector, a reserved opcode's always, no other. -/
theorem endsRun_decode (w : Word) : endsRun (decode w) =
    if opcodeOf w = config.opResA ∨ opcodeOf w = config.opResB then some .aborted
    else if opcodeOf w = config.opTrap ∧ fieldTrapvect8 w = config.tvHalt then some .halted else none := by
  split
  · next hreserved => exact endsRun_decode_reserved hreserved
  · next hreserved =>
    obtain ⟨hA, hB⟩ := not_or.mp hreserved
    by_cases hT : opcodeOf w = config.opTrap
    · simp [endsRun_decode_trap hT, hT]
    · simp [endsRun_decode_ordinary hA hB hT, hT]

theorem endsRun_decode_halted_iff (w : Word) : endsRun (decode w) = some .halted ↔
    opcodeOf w = config.opTrap ∧ fieldTrapvect8 w = config.tvHalt := by
  rw [endsRun_decode]
  split
  · next hreserved =>
    have hne : opcodeOf w ≠ config.opTrap := by rcases hreserved with h | h <;> rw [h] <;> decide
    simp [hne]
  · simp

theorem endsRun_decode_aborted_iff (w : Word) : endsRun (decode w) = some .aborted ↔
    opcodeOf w = config.opResA ∨ opcodeOf w = config.opResB := by
  rw [endsRun_decode]
  split
  · next hreserved => simp [hreserved]
  · next hreserved => simp [hreserved]

theorem exec_leaves_running_iff {i : Instr} {s t : State} {q : RunState} (hq : q ≠ .running) (hrun : s.run = .running)
    (h : exec i s = .next t) : t.run = q ↔ endsRun i = some q := by
  rw [exec_run h, hrun]
  cases endsRun i with
  | none => simp [hq.symm]
  | some q' => simp

/-- Settles O5: by the three ways a step goes; only a fetched word can end the run, and `endsRun` says which do. -/
theorem runStateTransitions : Obligations.RunStateTransitions := by
  intro s t h
  cases step_cases h with
  | terminal stopped same => exact ⟨fun _ => same, fun hrun => absurd hrun stopped⟩
  | @resumes u r running turn inside ends =>
    have hrun : t.run = .running := by rw [ends, resume_run, hostTurn_run turn, running]
    exact ⟨absurd running, fun _ => by simp [hrun, turn, inside]⟩
  | @fetches u running turn inside ends =>
    have hrun : (fetch u).2.run = .running := by rw [fetch_run, hostTurn_run turn, running]
    refine ⟨absurd running, fun _ => ⟨?_, ?_⟩⟩
    · rw [exec_leaves_running_iff (by decide) hrun ends, endsRun_decode_halted_iff]
      simp [turn, inside]
    · rw [exec_leaves_running_iff (by decide) hrun ends, endsRun_decode_aborted_iff]
      simp [turn, inside]

/-! ### The streams (R28, R29) -/

theorem exec_out {i : Instr} {s t : State} (h : exec i s = .next t) (hno : isTrap i = false) : t.out = s.out := by
  cases exec_effect h with
  | result dr v io out => exact out
  | store a v io out => exact out
  | stay => rfl
  | jump v => rfl
  | call v => rfl
  | abort => rfl
  | speak io trap => simp [hno] at trap
  | read reads trap => simp [hno] at trap
  | halt io trap => simp [hno] at trap

theorem step_out {s t : State} (h : step s = .next t) : s.out <+: t.out := by
  by_cases hrun : s.run = .running
  · obtain ⟨u, hturn, hflow⟩ := step_flow hrun h
    exact hostTurn_out hturn ▸ hflow.out
  · rw [step_terminal hrun] at h; cases h; exact List.prefix_rfl

/-- Settles O45: the streams' flow in a step, and the ways in which an instruction other than TRAP acts. -/
theorem outputOnlyGrowsAndOnlyByTrap : Obligations.OutputOnlyGrowsAndOnlyByTrap :=
  ⟨fun _ _ h => (step_out h).imp fun _ => Eq.symm, fun _ _ _ => exec_out⟩

theorem arrivals_terminal {s : State} (h : s.run ≠ .running) : arrivals s = [] := by
  cases hrun : s.run with
  | running => exact absurd hrun h
  | halted => simp [arrivals, hrun]
  | aborted => simp [arrivals, hrun]

/-- Settles O46: the host's turn appends the arrivals, and the rest of the step takes from the head. -/
theorem inputIsTakenInOrder : Obligations.InputIsTakenInOrder := by
  intro s t h
  by_cases hrun : s.run = .running
  · obtain ⟨u, hturn, hflow⟩ := step_flow hrun h
    obtain ⟨taken, htaken⟩ := hflow.inQ
    exact ⟨taken, by rw [htaken, hostTurn_inQ hrun hturn]⟩
  · rw [step_terminal hrun] at h
    cases h
    exact ⟨[], by simp [arrivals_terminal hrun]⟩

/-! ### Memory as data (R26) -/

theorem Memory.mem_of_read_ne {m : Memory} {a : Nat} (h : m.read a ≠ config.memReset) : (a, m.read a) ∈ m := by
  induction m with
  | nil => exact absurd rfl h
  | cons c rest ih =>
    obtain ⟨b, w⟩ := c
    by_cases hab : a = b
    · simp [Memory.read, hab]
    · simp only [Memory.read, if_neg hab] at h ⊢
      exact List.mem_cons_of_mem _ (ih h)

theorem Memory.read_of_mem {m : Memory} (hm : m.Pairwise fun c d => c.1 < d.1) {c : Cell} (hc : c ∈ m) :
    m.read c.1 = c.2 := by
  induction hm with
  | nil => cases hc
  | @cons d rest hd _ ih =>
    rcases List.mem_cons.mp hc with rfl | hc
    · simp [Memory.read]
    · have hne : c.1 ≠ d.1 := Nat.ne_of_gt (hd c hc)
      simp [Memory.read, hne, ih hc]

/-- A canonical memory lists every cell of any canonical memory that reads like it. -/
theorem Memory.subset_of_read_eq {m m' : Memory} (hm : m.wf)
    (h : ∀ a, a < config.memWords → m.read a = m'.read a) : m ⊆ m' := by
  intro c hc
  obtain ⟨hlt, hne⟩ := hm.2 c hc
  have hread : m'.read c.1 = c.2 := (h c.1 hlt).symm.trans (Memory.read_of_mem hm.1 hc)
  have hlisted : (c.1, m'.read c.1) ∈ m' := Memory.mem_of_read_ne (by rwa [hread])
  rwa [hread] at hlisted

/-- Settles O37: the two list the same cells, each once, by rising address. -/
theorem canonicalMemoriesAreEqualWhenTheyReadAlike : Obligations.CanonicalMemoriesAreEqualWhenTheyReadAlike := by
  intro m m' hm hm' h
  have hirrefl : Std.Irrefl fun c d : Cell => c.1 < d.1 := ⟨fun c => Nat.lt_irrefl c.1⟩
  have hantisymm : Std.Antisymm fun c d : Cell => c.1 < d.1 := ⟨fun _ _ hcd hdc => absurd hdc (Nat.lt_asymm hcd)⟩
  have hsub : m ⊆ m' := Memory.subset_of_read_eq hm h
  have hsub' : m' ⊆ m := Memory.subset_of_read_eq hm' fun a ha => (h a ha).symm
  exact hm.1.eq_of_mem_iff hm'.1 fun _ => ⟨@hsub _, @hsub' _⟩

/-! ### Reset (R32) and the cycle (R30) -/

/-- Settles O38: each value is a field of `State.resetWith`. -/
theorem resetGivesTheListedValues : Obligations.ResetGivesTheListedValues :=
  ⟨fun _ _ _ => ⟨_, rfl, rfl, rfl, rfl, fun _ => rfl, rfl, rfl, fun _ => rfl, rfl, rfl⟩, ⟨_, _, _, rfl⟩⟩

theorem resetWith_inv (regs : Vector Word 8) (inQ : List Byte) (host : HostPlan) :
    (State.resetWith regs inQ host).Inv where
  memory_wf := Memory.nil_wf
  pending_running _ := rfl
  pending_link h := absurd rfl h
  puts_address _ h := by cases h
  putsp_address _ h := by cases h

/-- Settles O49: no memory is listed and no routine is unfinished. -/
theorem resetIsWellFormed : Obligations.ResetIsWellFormed := ⟨resetWith_inv _ _ _, resetWith_inv⟩

/-- At a pc that is not the status address, the fetch is of the stored word, and only the pc changes. -/
theorem fetch_plain {s : State} (h : s.pc ≠ config.kbsrAddr) : fetch s = (s.peek s.pc, s.setPc (s.pc + 1)) := by
  rw [fetch_eq, memRead_plain _ _ h]

/-- Settles O41: the step's equations, and the decoder's answer for an encoded instruction. -/
theorem stepRunsTheFetchedInstruction : Obligations.StepRunsTheFetchedInstruction := by
  refine ⟨fun s u hrun hturn hpending => ?_, fun s u i hrun hturn hpending hi hpc hword => ?_,
    fun s u r hrun => step_resumes hrun, fun s => hostTurn_idle, fun s bytes rest again hhost => hostTurn_append ?_,
    fun s bytes rest hhost => hostTurn_append ?_⟩
  · rw [step_fetches hrun hturn hpending, fetch_eq]
  · rw [step_fetches hrun hturn hpending, fetch_plain hpc, hword, decode_encode i hi]
  · rw [hhost, nextMove_once]
  · rw [hhost, nextMove_forever]

end Sys2Proof.Machine
end

section
/-! PROOFS. What has been output is not read by any operation (R29): each commutes with `State.prefixOut`. -/

namespace Sys2Proof.Machine

/-! ### The fields and their updates -/

section
variable (bytes : List Byte) (s : State) (r : Reg) (a v : Word) (q : RunState) (p : Option Routine)

@[simp] theorem prefixOut_pc : (s.prefixOut bytes).pc = s.pc := rfl
@[simp] theorem prefixOut_cc : (s.prefixOut bytes).cc = s.cc := rfl
@[simp] theorem prefixOut_run : (s.prefixOut bytes).run = s.run := rfl
@[simp] theorem prefixOut_out : (s.prefixOut bytes).out = bytes ++ s.out := rfl
@[simp] theorem prefixOut_pending : (s.prefixOut bytes).pending = s.pending := rfl
@[simp] theorem prefixOut_inQ : (s.prefixOut bytes).inQ = s.inQ := rfl
@[simp] theorem prefixOut_host : (s.prefixOut bytes).host = s.host := rfl
@[simp] theorem prefixOut_x : (s.prefixOut bytes).x r = s.x r := rfl
@[simp] theorem prefixOut_peek : (s.prefixOut bytes).peek a = s.peek a := rfl

@[simp] theorem prefixOut_setX : (s.prefixOut bytes).setX r v = (s.setX r v).prefixOut bytes := rfl
@[simp] theorem prefixOut_setPc : (s.prefixOut bytes).setPc v = (s.setPc v).prefixOut bytes := rfl
@[simp] theorem prefixOut_setRun : (s.prefixOut bytes).setRun q = (s.setRun q).prefixOut bytes := rfl
@[simp] theorem prefixOut_setPending : (s.prefixOut bytes).setPending p = (s.setPending p).prefixOut bytes := rfl
@[simp] theorem prefixOut_poke : (s.prefixOut bytes).poke a v = (s.poke a v).prefixOut bytes := rfl
@[simp] theorem prefixOut_saveLink : saveLink (s.prefixOut bytes) = (saveLink s).prefixOut bytes := rfl
@[simp] theorem prefixOut_writeResult : writeResult r v (s.prefixOut bytes) = (writeResult r v s).prefixOut bytes := rfl

@[simp] theorem prefixOut_emit (more : List Byte) :
    (s.prefixOut bytes).emit more = (s.emit more).prefixOut bytes := by
  simp [State.emit, State.prefixOut]

/-! ### The bus and the service routines -/

theorem prefixOut_pollStatus : pollStatus (s.prefixOut bytes) = (pollStatus s).prefixOut bytes := by
  cases hq : s.inQ with
  | nil => rw [pollStatus_empty s hq, pollStatus_empty (s.prefixOut bytes) hq]; rfl
  | cons b rest => rw [pollStatus_ready s b rest hq, pollStatus_ready (s.prefixOut bytes) b rest hq]; rfl

@[simp] theorem prefixOut_memRead :
    memRead a (s.prefixOut bytes) = ((memRead a s).1, (memRead a s).2.prefixOut bytes) := by
  unfold memRead
  split
  · rw [prefixOut_pollStatus]; rfl
  · rfl

@[simp] theorem prefixOut_getcRead : getcRead (s.prefixOut bytes) = (getcRead s).prefixOut bytes := by
  cases hq : s.inQ with
  | nil => rw [getcRead_wait s hq, getcRead_wait (s.prefixOut bytes) hq]; rfl
  | cons b rest => rw [getcRead_take s b rest hq, getcRead_take (s.prefixOut bytes) b rest hq]; rfl

@[simp] theorem prefixOut_inRead : inRead (s.prefixOut bytes) = (inRead s).prefixOut bytes := by
  cases hq : s.inQ with
  | nil => rw [inRead_wait s hq, inRead_wait (s.prefixOut bytes) hq]; rfl
  | cons b rest =>
    rw [inRead_take s b rest hq, inRead_take (s.prefixOut bytes) b rest hq, deliverChar, deliverChar,
      ← prefixOut_writeResult, ← prefixOut_emit]
    rfl

@[simp] theorem prefixOut_stringLoop (chars : Word → List Byte) (n : Nat) :
    stringLoop chars n a (s.prefixOut bytes) =
      ((stringLoop chars n a s).1, (stringLoop chars n a s).2.prefixOut bytes) := by
  induction n generalizing a s with
  | zero => rfl
  | succ n ih =>
    by_cases hz : (memRead a s).1 = 0
    · rw [stringLoop_stop _ _ _ s hz, stringLoop_stop _ _ _ _ (by rwa [prefixOut_memRead]), prefixOut_memRead]
    · rw [stringLoop_more _ _ _ s hz, stringLoop_more _ _ _ _ (by rwa [prefixOut_memRead]), prefixOut_memRead,
        prefixOut_emit, ih]

@[simp] theorem prefixOut_putsFrom : putsFrom a (s.prefixOut bytes) = (putsFrom a s).prefixOut bytes := by
  simp only [putsFrom_eq, prefixOut_stringLoop, prefixOut_setPending]

@[simp] theorem prefixOut_putspFrom : putspFrom a (s.prefixOut bytes) = (putspFrom a s).prefixOut bytes := by
  simp only [putspFrom_eq, prefixOut_stringLoop, prefixOut_setPending]

theorem prefixOut_runOut : runOut (s.prefixOut bytes) = (runOut s).prefixOut bytes := prefixOut_emit _ _ _
theorem prefixOut_runPuts : runPuts (s.prefixOut bytes) = (runPuts s).prefixOut bytes := prefixOut_putsFrom _ _ _
theorem prefixOut_runPutsp : runPutsp (s.prefixOut bytes) = (runPutsp s).prefixOut bytes := prefixOut_putspFrom _ _ _

theorem prefixOut_runIn : runIn (s.prefixOut bytes) = (runIn s).prefixOut bytes := by
  rw [runIn, prefixOut_emit, prefixOut_inRead, runIn]

theorem prefixOut_runHalt : runHalt (s.prefixOut bytes) = (runHalt s).prefixOut bytes := by
  rw [runHalt, prefixOut_emit, prefixOut_setRun, runHalt]

theorem prefixOut_trapDispatch (vect : Byte) :
    trapDispatch vect (s.prefixOut bytes) = (trapDispatch vect s).prefixOut bytes := by
  simp only [trapDispatch, runGetc, prefixOut_getcRead, prefixOut_runOut, prefixOut_runPuts, prefixOut_runIn,
    prefixOut_runPutsp, prefixOut_runHalt, ← apply_ite (State.prefixOut bytes)]

/-! ### An instruction, a routine and a step -/

theorem prefixOut_loadFrom (dr : Reg) (ea : Word) :
    loadFrom dr ea (s.prefixOut bytes) = (loadFrom dr ea s).prefixOut bytes := by
  simp only [loadFrom, prefixOut_memRead, prefixOut_writeResult]

theorem prefixOut_indirect (off : BitVec 9) :
    indirect off (s.prefixOut bytes) = ((indirect off s).1, (indirect off s).2.prefixOut bytes) :=
  prefixOut_memRead bytes s _

theorem prefixOut_resume (o : Routine) : resume o (s.prefixOut bytes) = (resume o s).prefixOut bytes := by
  cases o with
  | getc => exact prefixOut_getcRead bytes s
  | in_ => exact prefixOut_inRead bytes s
  | puts a => exact prefixOut_putsFrom bytes s a
  | putsp a => exact prefixOut_putspFrom bytes s a

theorem prefixOut_fetch : fetch (s.prefixOut bytes) = ((fetch s).1, (fetch s).2.prefixOut bytes) := by
  simp only [fetch_eq, prefixOut_pc, prefixOut_memRead, prefixOut_setPc]

theorem prefixOut_hostTurn : hostTurn (s.prefixOut bytes) = (hostTurn s).map (State.prefixOut bytes) := by
  simp only [hostTurn, prefixOut_host]
  split
  · rfl
  · rfl
  · exact (apply_ite (Option.map (State.prefixOut bytes)) (killable s = true) none (some s)).symm

end
theorem exec_prefixOut (bytes : List Byte) {i : Instr} {s t : State} (h : exec i s = .next t) :
    exec i (s.prefixOut bytes) = .next (t.prefixOut bytes) := by
  cases i with
  | br n z p off =>
    cases h
    exact congrArg Host.Outcome.next (apply_ite (State.prefixOut bytes) _ (s.setPc (pcRel off s)) s).symm
  | addReg dr sr1 sr2 => cases h; rfl
  | addImm dr sr1 imm => cases h; rfl
  | ld dr off => cases h; exact congrArg _ (prefixOut_loadFrom bytes s _ _)
  | st sr off => cases h; rfl
  | jsr off => cases h; rfl
  | jsrr base => cases h; rfl
  | andReg dr sr1 sr2 => cases h; rfl
  | andImm dr sr1 imm => cases h; rfl
  | ldr dr base off => cases h; exact congrArg _ (prefixOut_loadFrom bytes s _ _)
  | str sr base off => cases h; rfl
  | reservedA => cases h; rfl
  | not dr sr => cases h; rfl
  | ldi dr off =>
    cases h
    simp only [exec, execLdi, prefixOut_indirect, prefixOut_loadFrom]
  | sti sr off =>
    cases h
    simp only [exec, execSti, prefixOut_indirect, prefixOut_x, memWrite, prefixOut_poke]
  | jmp base => cases h; rfl
  | reservedB => cases h; rfl
  | lea dr off => cases h; rfl
  | trap v => cases h; exact congrArg _ (prefixOut_trapDispatch bytes (saveLink s) v)
  | getc => cases h; exact congrArg _ (prefixOut_getcRead bytes (saveLink s))
  | out => cases h; exact congrArg _ (prefixOut_runOut bytes (saveLink s))
  | puts => cases h; exact congrArg _ (prefixOut_runPuts bytes (saveLink s))
  | in_ => cases h; exact congrArg _ (prefixOut_runIn bytes (saveLink s))
  | putsp => cases h; exact congrArg _ (prefixOut_runPutsp bytes (saveLink s))
  | halt => cases h; exact congrArg _ (prefixOut_runHalt bytes (saveLink s))
  | trapUndefined v => cases h; rfl

theorem step_prefixOut (bytes : List Byte) {s t : State} (h : step s = .next t) :
    step (s.prefixOut bytes) = .next (t.prefixOut bytes) := by
  cases step_cases h with
  | terminal stopped same => rw [step_terminal (s := s.prefixOut bytes) stopped, same]
  | @resumes u r running turn inside ends =>
    have hturn : hostTurn (s.prefixOut bytes) = some (u.prefixOut bytes) := by simp [prefixOut_hostTurn, turn]
    rw [step_resumes (s := s.prefixOut bytes) running hturn inside, prefixOut_resume, ends]
  | @fetches u running turn inside ends =>
    have hturn : hostTurn (s.prefixOut bytes) = some (u.prefixOut bytes) := by simp [prefixOut_hostTurn, turn]
    rw [step_fetches (s := s.prefixOut bytes) running hturn inside, prefixOut_fetch]
    exact exec_prefixOut bytes ends

/-- Settles O47: a next state by `step_prefixOut`; a fault is the host's kill, and the host's turn reads no output. -/
theorem outputNeverAffectsExecution : Obligations.OutputNeverAffectsExecution := by
  refine fun bytes s => ⟨fun t => step_prefixOut bytes, fun f h => ?_⟩
  obtain ⟨hrun, hkill, rfl⟩ := step_fault h
  exact step_killed (s := s.prefixOut bytes) hrun (by rw [prefixOut_hostTurn, hkill]; rfl)

end Sys2Proof.Machine
end

section
/-! PROOFS. The statements of 20_memory.md: what a bus access and an instruction change in memory, and what a load or a
fetch finds after a store. -/

namespace Sys2Proof.Machine

/-! ### Frames of memory -/

theorem SameMemoryExcept.of_mem {as : List Word} {s t : State} (h : t.mem = s.mem) : SameMemoryExcept as s t :=
  fun a _ => congrArg (fun m => Memory.read m a.toNat) h

theorem SameMemoryExcept.trans {as : List Word} {s t u : State} (h : SameMemoryExcept as s t)
    (h' : SameMemoryExcept as t u) : SameMemoryExcept as s u :=
  fun a ha => (h' a ha).trans (h a ha)

/-- A write of the array adds its address to those at which memory may have changed. -/
theorem poke_memory {as : List Word} {s u : State} (a v : Word) (h : SameMemoryExcept as s u) :
    SameMemoryExcept (a :: as) s (u.poke a v) := fun b hb =>
  (poke_peek_other u a b v (List.ne_of_not_mem_cons hb)).trans (h b (List.not_mem_of_not_mem_cons hb))

/-! ### The bus (R41 to R43) -/

theorem memRead_status_empty {s : State} (h : s.inQ = []) :
    memRead config.kbsrAddr s = (0, s.poke config.kbsrAddr 0) := by
  rw [memRead, if_pos rfl, pollStatus_empty s h, poke_peek_same]

theorem memRead_status_ready {s : State} {b : Byte} {rest : List Byte} (h : s.inQ = b :: rest) :
    memRead config.kbsrAddr s =
      (readyStatus config.kbsrReadyPreservesLow (s.peek config.kbsrAddr),
        (({ s with inQ := rest } : State).poke config.kbsrAddr
          (readyStatus config.kbsrReadyPreservesLow (s.peek config.kbsrAddr))).poke config.kbdrAddr (zext16 b)) := by
  have hne : config.kbsrAddr ≠ config.kbdrAddr := by decide
  rw [memRead, if_pos rfl, pollStatus_ready s b rest h, poke_peek_other _ _ _ _ hne, poke_peek_same]

/-- The two mapped words (R27), which a poll writes (R42). -/
abbrev mappedWords : List Word := [config.kbsrAddr, config.kbdrAddr]

theorem memRead_memory (a : Word) (s : State) : SameMemoryExcept mappedWords s (memRead a s).2 := by
  intro b hb
  obtain ⟨hstatus, hdata⟩ : b ≠ config.kbsrAddr ∧ b ≠ config.kbdrAddr := by simpa using hb
  exact memRead_peek_other a b s hstatus hdata

theorem zext16_toNat (b : Byte) : (zext16 b).toNat = b.toNat := BitVec.toNat_setWidth_of_le (by decide)

/-- Settles O31: the status address is the only one at which a read polls. -/
theorem plainReadsHaveNoSideEffect : Obligations.PlainReadsHaveNoSideEffect := memRead_plain

/-- Settles O32: by the two answers of the poll. -/
theorem statusReadPollsOnce : Obligations.StatusReadPollsOnce := by
  refine ⟨fun s hq => ?_, fun s b rest hq => ?_⟩
  · exact ⟨_, memRead_status_empty hq, poke_peek_same _ _ _, poke_memory _ _ (.of_mem rfl), fun _ _ => rfl, rfl,
      rfl, ⟨rfl, rfl⟩, rfl, rfl, rfl⟩
  · have hne : config.kbsrAddr ≠ config.kbdrAddr := by decide
    refine ⟨_, _, memRead_status_ready hq, rfl, ?status, ?data, ?memory, rfl, rfl, fun _ _ => rfl, rfl, rfl, rfl, rfl,
      rfl⟩
    case status => rw [poke_peek_other _ _ _ _ hne, poke_peek_same]
    case data => rw [poke_peek_same, zext16_toNat]
    case memory =>
      have hframe := memRead_memory config.kbsrAddr s
      rw [memRead_status_ready hq] at hframe
      exact hframe

/-- Settles O33: the bus write is the write of the array, which has the frame of `poke`. -/
theorem busWritesArePlain : Obligations.BusWritesArePlain := fun a v s =>
  ⟨_, rfl, poke_peek_same s a v, poke_memory a v (.of_mem rfl), fun _ _ => rfl, rfl, rfl, ⟨rfl, rfl⟩, rfl, rfl, rfl⟩

/-! ### A load after a store (R53, R44) -/

/-- What a load puts in its register, and the flag it sets, are those of the word that its bus read answers. -/
theorem loadFrom_result {dr : Reg} {ea w : Word} {s : State} (h : (memRead ea s).1 = w) :
    (loadFrom dr ea s).x dr = w ∧ (loadFrom dr ea s).cc = classify w :=
  h ▸ ⟨writeResult_x_same _ _ _, writeResult_cc _ _ _⟩

/-- Settles O34: off the status address the load's bus read is of the stored word; there it is an empty poll's 0. -/
theorem loadReturnsTheStoredValue : Obligations.LoadReturnsTheStoredValue := by
  intro s t u sr dr off1 off2 hstore hsame haddr
  cases hstore
  have hstored : u.peek (s.pc + sext16 off1) = s.x sr := (hsame _ List.not_mem_nil).trans (poke_peek_same _ _ _)
  have hea : pcRel off2 u = s.pc + sext16 off1 := haddr
  refine ⟨_, rfl, fun hplain => loadFrom_result ?plain, fun hstatus hq => loadFrom_result ?status⟩
  case plain => rw [hea, memRead_plain _ _ hplain, hstored]
  case status => rw [hea, hstatus, memRead_status_empty hq]

/-! ### What an instruction changes in memory (R53, R42) -/

theorem loadFrom_memory (dr : Reg) (ea : Word) (s : State) : SameMemoryExcept mappedWords s (loadFrom dr ea s) :=
  memRead_memory ea s

theorem stringLoop_memory (chars : Word → List Byte) (n : Nat) (a : Word) (s : State) :
    SameMemoryExcept mappedWords s (stringLoop chars n a s).2 :=
  stringLoop_keeps (SameMemoryExcept mappedWords s) chars (fun a _ h => h.trans (memRead_memory a _))
    (fun _ _ h => h) n a s (.of_mem rfl)

theorem putsFrom_memory (a : Word) (s : State) : SameMemoryExcept mappedWords s (putsFrom a s) :=
  putsFrom_eq a s ▸ stringLoop_memory putsChars config.memWords a s

theorem putspFrom_memory (a : Word) (s : State) : SameMemoryExcept mappedWords s (putspFrom a s) :=
  putspFrom_eq a s ▸ stringLoop_memory putspChars config.memWords a s

theorem getcRead_mem (s : State) : (getcRead s).mem = s.mem := by
  cases hq : s.inQ with
  | nil => rw [getcRead_wait s hq]; rfl
  | cons b rest => rw [getcRead_take s b rest hq]; rfl

theorem inRead_mem (s : State) : (inRead s).mem = s.mem := by
  cases hq : s.inQ with
  | nil => rw [inRead_wait s hq]; rfl
  | cons b rest => rw [inRead_take s b rest hq]; rfl

theorem runIn_mem (s : State) : (runIn s).mem = s.mem := inRead_mem (s.emit config.inPrompt)

/-- The service routine that a vector selects (R120) writes no word but by a poll. -/
theorem trapDispatch_memory (v : Byte) (s : State) : SameMemoryExcept mappedWords s (trapDispatch v s) :=
  refineTrap_cases (fun v _ => SameMemoryExcept mappedWords s (trapDispatch v s))
    (getc := .of_mem (getcRead_mem s))
    (out := .of_mem rfl)
    (puts := putsFrom_memory _ s)
    (in_ := .of_mem (runIn_mem s))
    (putsp := putspFrom_memory _ s)
    (halt := .of_mem rfl)
    (undef := fun _ hv => .of_mem (congrArg State.mem (trapDispatch_undefined hv s)))
    v

theorem execBr_mem {n z p : Bool} {off : BitVec 9} {s t : State} (h : execBr n z p off s = .next t) :
    t.mem = s.mem := by
  cases h
  split <;> rfl

/-- An instruction changes the word it stores to, if it is a store, and the mapped words, if it polls. -/
theorem exec_memory {i : Instr} {s t : State} (h : exec i s = .next t) :
    SameMemoryExcept ((storeAddr i s).toList ++ mappedWords) s t := by
  cases i with
  | br n z p off => exact .of_mem (execBr_mem h)
  | addReg dr sr1 sr2 => cases h; exact .of_mem rfl
  | addImm dr sr1 imm => cases h; exact .of_mem rfl
  | ld dr off => cases h; exact loadFrom_memory dr _ s
  | st sr off => cases h; exact poke_memory _ _ (.of_mem rfl)
  | jsr off => cases h; exact .of_mem rfl
  | jsrr base => cases h; exact .of_mem rfl
  | andReg dr sr1 sr2 => cases h; exact .of_mem rfl
  | andImm dr sr1 imm => cases h; exact .of_mem rfl
  | ldr dr base off => cases h; exact loadFrom_memory dr _ s
  | str sr base off => cases h; exact poke_memory _ _ (.of_mem rfl)
  | reservedA => cases h; exact .of_mem rfl
  | not dr sr => cases h; exact .of_mem rfl
  | ldi dr off => cases h; exact (memRead_memory _ s).trans (loadFrom_memory dr _ _)
  | sti sr off => cases h; exact poke_memory _ _ (memRead_memory _ s)
  | jmp base => cases h; exact .of_mem rfl
  | reservedB => cases h; exact .of_mem rfl
  | lea dr off => cases h; exact .of_mem rfl
  | trap v => cases h; exact trapDispatch_memory v (saveLink s)
  | getc => cases h; exact .of_mem (getcRead_mem (saveLink s))
  | out => cases h; exact .of_mem rfl
  | puts => cases h; exact putsFrom_memory _ (saveLink s)
  | in_ => cases h; exact .of_mem (runIn_mem (saveLink s))
  | putsp => cases h; exact putspFrom_memory _ (saveLink s)
  | halt => cases h; exact .of_mem rfl
  | trapUndefined v => cases h; exact .of_mem rfl

/-- Settles O35: the frame of every instruction, read at an address outside it. -/
theorem memoryChangesOnlyByStoresAndPolls : Obligations.MemoryChangesOnlyByStoresAndPolls := by
  intro i s t a h hstore hstatus hdata
  exact exec_memory h a (by simp [hstore, hstatus, hdata])

/-! ### A fetch after a store (R55) -/

/-- A store puts its register at its address and goes on to the next instruction; STI's pointer read comes before the
write, so no poll can undo it. -/
theorem exec_store {i : Instr} {sr : Reg} {a : Word} {s : State}
    (hi : (∃ off, i = .st sr off) ∨ (∃ off, i = .sti sr off) ∨ (∃ base off, i = .str sr base off))
    (ha : storeAddr i s = some a) :
    ∃ t, exec i s = .next t ∧ t.peek a = s.x sr ∧ t.pc = s.pc ∧ SameRun s t := by
  rcases hi with ⟨off, rfl⟩ | ⟨off, rfl⟩ | ⟨base, off, rfl⟩ <;> cases ha
  · exact ⟨_, rfl, poke_peek_same _ _ _, rfl, rfl, rfl, rfl⟩
  · exact ⟨_, rfl, (poke_peek_same _ _ _).trans (memRead_x _ s sr), memRead_pc _ s, memRead_run _ s,
      memRead_pending _ s, memRead_host _ s⟩
  · exact ⟨_, rfl, poke_peek_same _ _ _, rfl, rfl, rfl, rfl⟩

/-- With the host idle, no routine unfinished and the pc off the status address, a step executes the stored word. -/
theorem step_executes_stored {s : State} (hrun : s.run = .running) (hhost : s.host = HostPlan.idle)
    (hpending : s.pending = none) (hpc : s.pc ≠ config.kbsrAddr) :
    step s = exec (decode (s.peek s.pc)) (s.setPc (s.pc + 1)) := by
  rw [step_fetches hrun (hostTurn_idle hhost) hpending, fetch_plain hpc]

/-- Settles O36: the first step is the store's; what it keeps makes the second a fetch of the stored word. -/
theorem storedWordIsFetchedNext : Obligations.StoredWordIsFetchedNext := by
  intro s i sr hrun hhost hpending hpc hnext hdecode hi haddr
  obtain ⟨t, hexec, hstored, htpc, htrun, htpending, hthost⟩ := exec_store hi haddr
  rw [setPc_pc] at htpc
  rw [setPc_x, ← htpc] at hstored
  refine ⟨t, ?first, htpc, hstored, ?second⟩
  case first => rw [step_executes_stored hrun hhost hpending hpc, hdecode, hexec]
  case second =>
    rw [step_executes_stored (htrun.trans hrun) (hthost.trans hhost) (htpending.trans hpending) (htpc ▸ hnext),
      hstored]

end Sys2Proof.Machine
end

section
/-! PROOFS. The statements of 30_encoding.md: the round trip (R61, R62, R64, R68), the opcode map (R64, R66) and the
ignored bits (R65). -/

namespace Sys2Proof

/-! ### The word of an instruction, decoded -/

/-- Settles O52: `decode_encode` for the well-formed instructions, `decode_encodeTrap` for the general TRAP row. -/
theorem decodeInvertsEncode : Obligations.DecodeInvertsEncode := ⟨decode_encode, decode_encodeTrap⟩

/-- Settles O56: the decoder runs on each word. -/
theorem sampleWordsDecode : Obligations.SampleWordsDecode :=
  ⟨rfl, rfl, rfl, rfl, rfl, rfl, rfl, rfl, rfl, rfl, rfl, rfl, rfl, rfl, rfl⟩

/-! ### What the decoder can answer for a word -/

/-- The decoder as a relation: one case for each opcode, and for each value of its mode bit where it has one (R64). -/
inductive DecodesTo (w : Word) : Instr → Prop
  | br (hop : opcodeOf w = config.opBr) : DecodesTo w (.br (fieldN w) (fieldZ w) (fieldP w) (fieldPCoffset9 w))
  | addReg (hop : opcodeOf w = config.opAdd) (hm : fieldM w = false) :
      DecodesTo w (.addReg (fieldDR w) (fieldSR1 w) (fieldSR2 w))
  | addImm (hop : opcodeOf w = config.opAdd) (hm : fieldM w = true) :
      DecodesTo w (.addImm (fieldDR w) (fieldSR1 w) (fieldImm5 w))
  | ld (hop : opcodeOf w = config.opLd) : DecodesTo w (.ld (fieldDR w) (fieldPCoffset9 w))
  | st (hop : opcodeOf w = config.opSt) : DecodesTo w (.st (fieldDR w) (fieldPCoffset9 w))
  | jsr (hop : opcodeOf w = config.opJsr) (hl : fieldL w = true) : DecodesTo w (.jsr (fieldPCoffset11 w))
  | jsrr (hop : opcodeOf w = config.opJsr) (hl : fieldL w = false) : DecodesTo w (.jsrr (fieldSR1 w))
  | andReg (hop : opcodeOf w = config.opAnd) (hm : fieldM w = false) :
      DecodesTo w (.andReg (fieldDR w) (fieldSR1 w) (fieldSR2 w))
  | andImm (hop : opcodeOf w = config.opAnd) (hm : fieldM w = true) :
      DecodesTo w (.andImm (fieldDR w) (fieldSR1 w) (fieldImm5 w))
  | ldr (hop : opcodeOf w = config.opLdr) : DecodesTo w (.ldr (fieldDR w) (fieldSR1 w) (fieldOffset6 w))
  | str (hop : opcodeOf w = config.opStr) : DecodesTo w (.str (fieldDR w) (fieldSR1 w) (fieldOffset6 w))
  | reservedA (hop : opcodeOf w = config.opResA) : DecodesTo w .reservedA
  | not (hop : opcodeOf w = config.opNot) : DecodesTo w (.not (fieldDR w) (fieldSR1 w))
  | ldi (hop : opcodeOf w = config.opLdi) : DecodesTo w (.ldi (fieldDR w) (fieldPCoffset9 w))
  | sti (hop : opcodeOf w = config.opSti) : DecodesTo w (.sti (fieldDR w) (fieldPCoffset9 w))
  | jmp (hop : opcodeOf w = config.opJmp) : DecodesTo w (.jmp (fieldSR1 w))
  | reservedB (hop : opcodeOf w = config.opResB) : DecodesTo w .reservedB
  | lea (hop : opcodeOf w = config.opLea) : DecodesTo w (.lea (fieldDR w) (fieldPCoffset9 w))
  | trap (hop : opcodeOf w = config.opTrap) : DecodesTo w (refineTrap (fieldTrapvect8 w))

theorem decodesTo_ordinary {w : Word} (hA : opcodeOf w ≠ config.opResA) (hB : opcodeOf w ≠ config.opResB)
    (hT : opcodeOf w ≠ config.opTrap) : DecodesTo w (decode w) := by
  rcases Machine.opcode_ordinary _ hA hB hT with h | h | h | h | h | h | h | h | h | h | h | h | h
  · exact decode_br w h ▸ .br h
  · cases hm : fieldM w with
    | false => exact decode_addReg w h hm ▸ .addReg h hm
    | true => exact decode_addImm w h hm ▸ .addImm h hm
  · exact decode_ld w h ▸ .ld h
  · exact decode_st w h ▸ .st h
  · cases hl : fieldL w with
    | false => exact decode_jsrr w h hl ▸ .jsrr h hl
    | true => exact decode_jsr w h hl ▸ .jsr h hl
  · cases hm : fieldM w with
    | false => exact decode_andReg w h hm ▸ .andReg h hm
    | true => exact decode_andImm w h hm ▸ .andImm h hm
  · exact decode_ldr w h ▸ .ldr h
  · exact decode_str w h ▸ .str h
  · exact decode_not w h ▸ .not h
  · exact decode_ldi w h ▸ .ldi h
  · exact decode_sti w h ▸ .sti h
  · exact decode_jmp w h ▸ .jmp h
  · exact decode_lea w h ▸ .lea h

theorem decodesTo_decode (w : Word) : DecodesTo w (decode w) := by
  by_cases hA : opcodeOf w = config.opResA
  · exact decode_reservedA w hA ▸ .reservedA hA
  by_cases hB : opcodeOf w = config.opResB
  · exact decode_reservedB w hB ▸ .reservedB hB
  by_cases hT : opcodeOf w = config.opTrap
  · exact decode_trap w hT ▸ .trap hT
  exact decodesTo_ordinary hA hB hT

theorem refineTrap_wellFormed (v : Byte) : (refineTrap v).WellFormed :=
  refineTrap_cases (fun _ i => i.WellFormed) rfl rfl rfl rfl rfl rfl (fun v => (trapUndefined_wellFormed_iff v).mpr) v

theorem DecodesTo.wellFormed {w : Word} {i : Instr} (h : DecodesTo w i) : i.WellFormed := by
  cases h with
  | trap => exact refineTrap_wellFormed _
  | _ => rfl

/-! ### The fields of a word, put back at their places (R61) -/

/-- A field read and put back is the word under the field's mask. -/
theorem place_extractLsb' (w : Word) (lo n : Nat) :
    place (w.extractLsb' lo n) lo = w &&& place (BitVec.allOnes n) lo := by
  ext k hk
  by_cases hlo : k < lo
  · simp [place, hlo]
  · by_cases hn : k - lo < n
    · have hsum : lo + (k - lo) = k := by omega
      simp [place, hlo, hn, hsum, BitVec.getLsbD_eq_getElem hk]
    · simp [place, hlo, hn]

theorem placeBit_getLsbD (w : Word) (k : Nat) : placeBit (w.getLsbD k) k = w &&& place (BitVec.allOnes 1) k := by
  have hbit : BitVec.ofBool (w.getLsbD k) = w.extractLsb' k 1 := by
    ext j hj
    obtain rfl : j = 0 := by omega
    simp
  rw [placeBit, hbit, place_extractLsb']

section
variable (w : Word)

@[simp] theorem place_opcodeOf : place (opcodeOf w) 12 = w &&& 0xF000#16 := place_extractLsb' w 12 4
@[simp] theorem place_fieldDR : place (fieldDR w) 9 = w &&& 0x0E00#16 := place_extractLsb' w 9 3
@[simp] theorem place_fieldSR1 : place (fieldSR1 w) 6 = w &&& 0x01C0#16 := place_extractLsb' w 6 3
@[simp] theorem place_fieldSR2 : place (fieldSR2 w) 0 = w &&& 0x0007#16 := place_extractLsb' w 0 3
@[simp] theorem place_fieldImm5 : place (fieldImm5 w) 0 = w &&& 0x001F#16 := place_extractLsb' w 0 5
@[simp] theorem place_fieldOffset6 : place (fieldOffset6 w) 0 = w &&& 0x003F#16 := place_extractLsb' w 0 6
@[simp] theorem place_fieldPCoffset9 : place (fieldPCoffset9 w) 0 = w &&& 0x01FF#16 := place_extractLsb' w 0 9
@[simp] theorem place_fieldPCoffset11 : place (fieldPCoffset11 w) 0 = w &&& 0x07FF#16 := place_extractLsb' w 0 11
@[simp] theorem place_fieldTrapvect8 : place (fieldTrapvect8 w) 0 = w &&& 0x00FF#16 := place_extractLsb' w 0 8
@[simp] theorem placeBit_fieldM : placeBit (fieldM w) 5 = w &&& 0x0020#16 := placeBit_getLsbD w 5
@[simp] theorem placeBit_fieldL : placeBit (fieldL w) 11 = w &&& 0x0800#16 := placeBit_getLsbD w 11
@[simp] theorem placeBit_fieldN : placeBit (fieldN w) 11 = w &&& 0x0800#16 := placeBit_getLsbD w 11
@[simp] theorem placeBit_fieldZ : placeBit (fieldZ w) 10 = w &&& 0x0400#16 := placeBit_getLsbD w 10
@[simp] theorem placeBit_fieldP : placeBit (fieldP w) 9 = w &&& 0x0200#16 := placeBit_getLsbD w 9

end

/-! ### The formats (R62), filled with the fields of a word -/

section
variable {w : Word} {op : Opcode}

theorem encodeRR_fields (hop : opcodeOf w = op) (hm : fieldM w = false) :
    encodeRR op (fieldDR w) (fieldSR1 w) (fieldSR2 w) = w &&& 0xFFE7#16 := by
  simp [encodeRR_eq, ← hop, ← hm, ← BitVec.and_or_distrib_left]

theorem encodeRI_fields (hop : opcodeOf w = op) (hm : fieldM w = true) :
    encodeRI op (fieldDR w) (fieldSR1 w) (fieldImm5 w) = w &&& 0xFFFF#16 := by
  simp [encodeRI_eq, ← hop, ← hm, ← BitVec.and_or_distrib_left]

theorem encodePcRel_fields (hop : opcodeOf w = op) :
    encodePcRel op (fieldDR w) (fieldPCoffset9 w) = w &&& 0xFFFF#16 := by
  simp [encodePcRel_eq, ← hop, ← BitVec.and_or_distrib_left]

theorem encodeBaseOff_fields (hop : opcodeOf w = op) :
    encodeBaseOff op (fieldDR w) (fieldSR1 w) (fieldOffset6 w) = w &&& 0xFFFF#16 := by
  simp [encodeBaseOff_eq, ← hop, ← BitVec.and_or_distrib_left]

theorem encodeTrap_fields (hop : opcodeOf w = config.opTrap) :
    encodeTrap (fieldTrapvect8 w) = w &&& 0xF0FF#16 := by
  simp [encodeTrap_eq, ← hop, ← BitVec.and_or_distrib_left]

theorem encode_br_fields (hop : opcodeOf w = config.opBr) :
    encode (.br (fieldN w) (fieldZ w) (fieldP w) (fieldPCoffset9 w)) = w &&& 0xFFFF#16 := by
  simp [encode_br, ← hop, ← BitVec.and_or_distrib_left]

theorem encode_jsr_fields (hop : opcodeOf w = config.opJsr) (hl : fieldL w = true) :
    encode (.jsr (fieldPCoffset11 w)) = w &&& 0xFFFF#16 := by
  simp [encode_jsr, ← hop, ← hl, ← BitVec.and_or_distrib_left]

theorem encode_jsrr_fields (hop : opcodeOf w = config.opJsr) (hl : fieldL w = false) :
    encode (.jsrr (fieldSR1 w)) = w &&& 0xF9C0#16 := by
  simp [encode_jsrr, ← hop, ← hl, ← BitVec.and_or_distrib_left]

theorem encode_not_fields (hop : opcodeOf w = config.opNot) :
    encode (.not (fieldDR w) (fieldSR1 w)) = w &&& 0xFFC0#16 ||| 0x003F#16 := by
  have hfill : place 0b111111#6 0 = 0x003F#16 := rfl
  simp [encode_not, ← hop, hfill, ← BitVec.and_or_distrib_left]

theorem encode_jmp_fields (hop : opcodeOf w = config.opJmp) :
    encode (.jmp (fieldSR1 w)) = w &&& 0xF1C0#16 := by
  simp [encode_jmp, ← hop, ← BitVec.and_or_distrib_left]

theorem placeOp_opcodeOf (hop : opcodeOf w = op) : placeOp op = w &&& 0xF000#16 :=
  hop ▸ place_opcodeOf w

end

/-! ### The encoding of a word's instruction -/

/-- The bits that the decoder reads in the words of a row (R65). -/
def OpcodeRow.readBits (r : OpcodeRow) : Word :=
  if r.bits = 0x1000 ∨ r.bits = 0x5000 then 0xFFE7
  else if r.bits = 0x4000 then 0xF9C0
  else if r.bits = 0x8000 ∨ r.bits = 0xD000 then 0xF000
  else if r.bits = 0x9000 then 0xFFC0
  else if r.bits = 0xC000 then 0xF1C0
  else if r.bits = 0xF000 then 0xF0FF
  else 0xFFFF

/-- What the encoder writes in the bits that are not read: 1 in bits 5:0 of NOT, 0 elsewhere (R62, log 16). -/
def OpcodeRow.filler (r : OpcodeRow) : Word := if r.bits = 0x9000 then 0x003F else 0

theorem readBits_mapRow (i : Instr) : i.mapRow.readBits = i.readBits := by
  cases i <;> rfl

theorem encode_refineTrap (v : Byte) : encode (refineTrap v) = encodeTrap v :=
  refineTrap_cases (fun v i => encode i = encodeTrap v) rfl rfl rfl rfl rfl rfl (fun _ _ => rfl) v

theorem mapRow_refineTrap (v : Byte) : (refineTrap v).mapRow = ⟨"TRAP", 0xF000, 0xF000⟩ :=
  refineTrap_cases (fun _ i => i.mapRow = ⟨"TRAP", 0xF000, 0xF000⟩) rfl rfl rfl rfl rfl rfl (fun _ _ => rfl) v

theorem DecodesTo.encode_eq {w : Word} {i : Instr} (h : DecodesTo w i) :
    encode i = w &&& i.readBits ||| i.mapRow.filler := by
  cases h with
  | not hop => exact encode_not_fields hop
  | br hop => exact (encode_br_fields hop).trans BitVec.or_zero.symm
  | addReg hop hm | andReg hop hm => exact (encodeRR_fields hop hm).trans BitVec.or_zero.symm
  | addImm hop hm | andImm hop hm => exact (encodeRI_fields hop hm).trans BitVec.or_zero.symm
  | ld hop | st hop | ldi hop | sti hop | lea hop => exact (encodePcRel_fields hop).trans BitVec.or_zero.symm
  | ldr hop | str hop => exact (encodeBaseOff_fields hop).trans BitVec.or_zero.symm
  | jsr hop hl => exact (encode_jsr_fields hop hl).trans BitVec.or_zero.symm
  | jsrr hop hl => exact (encode_jsrr_fields hop hl).trans BitVec.or_zero.symm
  | jmp hop => exact (encode_jmp_fields hop).trans BitVec.or_zero.symm
  | reservedA hop | reservedB hop => exact (placeOp_opcodeOf hop).trans BitVec.or_zero.symm
  | trap hop =>
    rw [encode_refineTrap, ← readBits_mapRow, mapRow_refineTrap]
    exact (encodeTrap_fields hop).trans BitVec.or_zero.symm

/-- The word of a word's instruction: its read bits, and the row's filler for the others. -/
theorem encode_decode (w : Word) :
    encode (decode w) = w &&& (decode w).readBits ||| (decode w).mapRow.filler :=
  (decodesTo_decode w).encode_eq

/-! ### The opcode map (R64, R66) -/

theorem OpcodeRow.selects_iff (r : OpcodeRow) (w : Word) : r.selects w = true ↔ w &&& r.mask = r.bits := beq_iff_eq

theorem mapRow_mem_opcodeMap (i : Instr) : i.mapRow ∈ opcodeMap := by
  cases i <;> simp [Instr.mapRow, opcodeMap]

/-- Two rows whose match bits agree where both masks look are one row. -/
theorem opcodeMap_disjoint : ∀ r ∈ opcodeMap, ∀ r' ∈ opcodeMap,
    r.bits &&& r'.mask = r'.bits &&& r.mask → r = r' := by decide

theorem eq_of_selects {r r' : OpcodeRow} {w : Word} (hr : r ∈ opcodeMap) (hr' : r' ∈ opcodeMap)
    (h : r.selects w = true) (h' : r'.selects w = true) : r = r' := by
  apply opcodeMap_disjoint r hr r' hr'
  calc r.bits &&& r'.mask
      _ = w &&& r.mask &&& r'.mask := by rw [(r.selects_iff w).mp h]
      _ = w &&& r'.mask &&& r.mask := by rw [BitVec.and_assoc, BitVec.and_comm r.mask, ← BitVec.and_assoc]
      _ = r'.bits &&& r.mask := by rw [(r'.selects_iff w).mp h']

section
variable {w : Word} {op : Opcode} {b : Bool}

theorem and_opcode_M (hop : opcodeOf w = op) (hm : fieldM w = b) :
    w &&& 0xF020#16 = placeOp op ||| placeBit b config.posM := by
  simp [placeOp, config, ← hop, ← hm, ← BitVec.and_or_distrib_left]

theorem and_opcode_L (hop : opcodeOf w = op) (hl : fieldL w = b) :
    w &&& 0xF800#16 = placeOp op ||| placeBit b config.posL := by
  simp [placeOp, config, ← hop, ← hl, ← BitVec.and_or_distrib_left]

end

theorem DecodesTo.selects {w : Word} {i : Instr} (h : DecodesTo w i) : i.mapRow.selects w = true := by
  rw [OpcodeRow.selects_iff]
  cases h with
  | addReg hop hm | addImm hop hm | andReg hop hm | andImm hop hm => exact and_opcode_M hop hm
  | jsr hop hl | jsrr hop hl => exact and_opcode_L hop hl
  | trap hop =>
    rw [mapRow_refineTrap]
    exact (placeOp_opcodeOf hop).symm
  | _ hop => exact (placeOp_opcodeOf hop).symm

/-- Settles O54: the decoder's row selects the word, and no two rows of the map do. -/
theorem opcodeMapCoversEveryWordOnce : Obligations.OpcodeMapCoversEveryWordOnce := by
  intro w
  have hd := decodesTo_decode w
  have hmem := mapRow_mem_opcodeMap (decode w)
  refine ⟨hmem, hd.wellFormed, fun r hr => ⟨fun h => ?_, fun h => h ▸ hd.selects⟩⟩
  exact eq_of_selects hr hmem h hd.selects

theorem DecodesTo.opcodeOf_eq {w : Word} {i : Instr} (h : DecodesTo w i) : opcodeOf w = opcodeOf i.mapRow.bits := by
  cases h with
  | trap hop =>
    rw [mapRow_refineTrap]
    exact hop
  | _ hop =>
    dsimp only [Instr.mapRow]
    exact hop

theorem decode_eq_reservedA_iff (w : Word) : decode w = .reservedA ↔ opcodeOf w = config.opResA :=
  ⟨fun h => (h ▸ decodesTo_decode w : DecodesTo w .reservedA).opcodeOf_eq, decode_reservedA w⟩

theorem decode_eq_reservedB_iff (w : Word) : decode w = .reservedB ↔ opcodeOf w = config.opResB :=
  ⟨fun h => (h ▸ decodesTo_decode w : DecodesTo w .reservedB).opcodeOf_eq, decode_reservedB w⟩

/-- The words of one opcode are a range of 4096. -/
theorem opcodeOf_eq_iff_range (w : Word) (op : Opcode) :
    opcodeOf w = op ↔ op.toNat * 4096 ≤ w.toNat ∧ w.toNat ≤ op.toNat * 4096 + 4095 := by
  have hw := w.isLt
  have hnum : (opcodeOf w).toNat = w.toNat / 4096 % 16 := by
    rw [opcodeOf_eq, BitVec.extractLsb'_toNat, Nat.shiftRight_eq_div_pow]
  rw [BitVec.toNat_eq, hnum]
  omega

/-- Settles O55: each reserved row is that of one opcode, whose words are a range. -/
theorem illegalWordsAreTheTwoReservedRanges : Obligations.IllegalWordsAreTheTwoReservedRanges := fun w =>
  ⟨(decode_eq_reservedA_iff w).trans (opcodeOf_eq_iff_range w config.opResA),
    (decode_eq_reservedB_iff w).trans (opcodeOf_eq_iff_range w config.opResB)⟩

/-! ### The ignored bits (R65) -/

theorem opcodeMap_reads_mask : ∀ r ∈ opcodeMap, r.readBits &&& r.mask = r.mask := by decide

theorem opcodeMap_filler_ignored : ∀ r ∈ opcodeMap, r.filler &&& r.readBits = 0 := by decide

/-- Words that agree on the read bits of the first's row are in that row. -/
theorem mapRow_eq_of_agree {w w' : Word} (h : w &&& (decode w).readBits = w' &&& (decode w).readBits) :
    (decode w').mapRow = (decode w).mapRow := by
  have hmem := mapRow_mem_opcodeMap (decode w)
  refine eq_of_selects (mapRow_mem_opcodeMap _) hmem (decodesTo_decode w').selects ?_
  have hsel := ((decode w).mapRow.selects_iff w).mp (decodesTo_decode w).selects
  rw [OpcodeRow.selects_iff, ← hsel, ← opcodeMap_reads_mask _ hmem, readBits_mapRow, ← BitVec.and_assoc, ← h,
    BitVec.and_assoc]

/-- The encodings agree: the read bits by hypothesis, the others by the row's filler. -/
theorem encode_decode_eq_of_agree {w w' : Word} (h : w &&& (decode w).readBits = w' &&& (decode w).readBits) :
    encode (decode w') = encode (decode w) := by
  have hrow := mapRow_eq_of_agree h
  have hread : (decode w').readBits = (decode w).readBits := by rw [← readBits_mapRow, hrow, readBits_mapRow]
  rw [encode_decode w', encode_decode w, hrow, hread, h]

theorem decode_encode_decode (w : Word) : decode (encode (decode w)) = decode w :=
  decode_encode _ (decodesTo_decode w).wellFormed

/-- Settles O53: words that agree have one encoding, which `decode` inverts; the filler is outside the read bits. -/
theorem decodeReadsAllButTheIgnoredBits : Obligations.DecodeReadsAllButTheIgnoredBits := by
  refine ⟨fun w w' h => ?_, fun w => ?_⟩
  · rw [← decode_encode_decode w', encode_decode_eq_of_agree h, decode_encode_decode]
  · have hfill := opcodeMap_filler_ignored _ (mapRow_mem_opcodeMap (decode w))
    rw [readBits_mapRow] at hfill
    rw [encode_decode, BitVec.and_or_distrib_right, hfill, BitVec.and_assoc, BitVec.and_self]
    exact BitVec.or_zero

end Sys2Proof
end

section
/-! PROOFS. The statements of 40_operate.md: ADD (R80), AND (R81) and NOT (R82). -/

namespace Sys2Proof.Machine

/-! ### A flagged register write and its frame -/

/-- A sum of words as the rules write it, modulo 65536. -/
theorem word_add_eq_ofNat (a b : Word) : a + b = BitVec.ofNat 16 ((a.toNat + b.toNat) % 65536) :=
  BitVec.eq_of_toNat_eq (by simp)

theorem writeResult_regs (r : Reg) (v : Word) (s : State) : SameRegsExcept [r] s (writeResult r v s) := fun _ hr =>
  writeResult_x_other _ _ _ _ (List.ne_of_not_mem_cons hr)

/-- A flagged register write sets the flag to the class of what the register now holds, and changes nothing else. -/
theorem writeResult_frame (r : Reg) (v : Word) (s : State) :
    (writeResult r v s).cc = classify ((writeResult r v s).x r) ∧ SameRegsExcept [r] s (writeResult r v s) ∧
    (writeResult r v s).pc = s.pc ∧ SameMemoryExcept [] s (writeResult r v s) ∧ SameStreams s (writeResult r v s) ∧
    SameRun s (writeResult r v s) :=
  ⟨by rw [writeResult_cc, writeResult_x_same], writeResult_regs r v s, writeResult_pc r v s,
    .of_mem (writeResult_mem r v s), ⟨writeResult_inQ r v s, writeResult_out r v s⟩,
    writeResult_run r v s, writeResult_pending r v s, writeResult_host r v s⟩

/-! ### The results of the operate instructions, for either second operand (R63) -/

section
variable (dr sr : Reg) (o : Operand2) (s : State)

theorem addOp_x : (addOp dr sr o s).x dr = BitVec.ofNat 16 (((s.x sr).toNat + (o.value s).toNat) % 65536) :=
  (writeResult_x_same _ _ _).trans (word_add_eq_ofNat _ _)

theorem andOp_x_getLsbD (k : Nat) :
    ((andOp dr sr o s).x dr).getLsbD k = ((s.x sr).getLsbD k && (o.value s).getLsbD k) := by
  rw [andOp, writeResult_x_same, BitVec.getLsbD_and]

theorem not_x_toNat : ((writeResult dr (~~~ s.x sr) s).x dr).toNat = 65535 - (s.x sr).toNat := by
  rw [writeResult_x_same, BitVec.toNat_not]

end

/-! ### The statements -/

/-- Settles O6: the two rows of ADD in the decoder; both forms are `addOp`, a flagged write of the sum. -/
theorem addSumsAndSetsTheFlags : Obligations.AddSumsAndSetsTheFlags :=
  ⟨fun w hop => ⟨decode_addReg w hop, decode_addImm w hop⟩,
    fun dr sr1 sr2 s => ⟨_, rfl, addOp_x dr sr1 (.reg sr2) s, writeResult_frame _ _ _⟩,
    fun dr sr1 imm s => ⟨_, rfl, addOp_x dr sr1 (.imm imm) s, writeResult_frame _ _ _⟩⟩

/-- Settles O7: the two rows of AND in the decoder; both forms are `andOp`, a flagged write of the bitwise and. -/
theorem andMasksAndSetsTheFlags : Obligations.AndMasksAndSetsTheFlags :=
  ⟨fun w hop => ⟨decode_andReg w hop, decode_andImm w hop⟩,
    fun dr sr1 sr2 s => ⟨_, rfl, fun k _ => andOp_x_getLsbD dr sr1 (.reg sr2) s k, writeResult_frame _ _ _⟩,
    fun dr sr1 imm s => ⟨_, rfl, fun k _ => andOp_x_getLsbD dr sr1 (.imm imm) s k, writeResult_frame _ _ _⟩⟩

/-- Settles O8: the row of NOT in the decoder; NOT is a flagged write of the complement. -/
theorem notComplementsAndSetsTheFlags : Obligations.NotComplementsAndSetsTheFlags :=
  ⟨decode_not, fun dr sr s => ⟨_, rfl, not_x_toNat dr sr s, writeResult_frame _ _ _⟩⟩

end Sys2Proof.Machine
end

section
/-! PROOFS. The statements of 41_control.md: BR (R90), JMP (R91), JSR (R92) and JSRR (R93). -/

namespace Sys2Proof.Machine

/-! ### The frames of a jump and of a call -/

/-- A jump changes nothing but the pc. -/
theorem setPc_frame (v : Word) (s : State) :
    SameRegsExcept [] s (s.setPc v) ∧ (s.setPc v).cc = s.cc ∧ SameMemoryExcept [] s (s.setPc v) ∧
    SameStreams s (s.setPc v) ∧ SameRun s (s.setPc v) :=
  ⟨fun r _ => setPc_x s r v, setPc_cc s v, .of_mem (setPc_mem s v), ⟨setPc_inQ s v, setPc_out s v⟩,
    setPc_run s v, setPc_pending s v, setPc_host s v⟩

/-- A call changes nothing but the link register and the pc. -/
theorem call_frame (v : Word) (s : State) :
    SameRegsExcept [7] s ((saveLink s).setPc v) ∧ ((saveLink s).setPc v).cc = s.cc ∧
    SameMemoryExcept [] s ((saveLink s).setPc v) ∧ SameStreams s ((saveLink s).setPc v) ∧
    SameRun s ((saveLink s).setPc v) :=
  ⟨fun _ hr => saveLink_x_of_not_mem (List.mem_singleton_self _) hr s, saveLink_cc s, .of_mem (saveLink_mem s),
    ⟨saveLink_inQ s, saveLink_out s⟩, saveLink_run s, saveLink_pending s, saveLink_host s⟩

/-! ### BR's test: each mask bit stands for one value of the flag (D4) -/

section
variable (n z p : Bool)

@[simp] theorem branchTaken_negative : branchTaken n z p .negative = n := by revert n z p; decide
@[simp] theorem branchTaken_zero : branchTaken n z p .zero = z := by revert n z p; decide
@[simp] theorem branchTaken_positive : branchTaken n z p .positive = p := by revert n z p; decide

theorem branchTaken_iff (cc : CondFlag) : branchTaken n z p cc = true ↔
    (n = true ∧ cc = .negative) ∨ (z = true ∧ cc = .zero) ∨ (p = true ∧ cc = .positive) := by
  cases cc with
  | negative => simp
  | zero => simp
  | positive => simp

/-- BR is a jump either way: an untaken one goes to the incremented pc. -/
theorem exec_br (off : BitVec 9) (s : State) : exec (.br n z p off) s =
    .next (s.setPc (if branchTaken n z p s.cc then pcRel off s else s.pc)) :=
  congrArg Host.Outcome.next (apply_ite s.setPc _ (pcRel off s) s.pc).symm

end

/-- The target of BR and JSR as the rules write it, modulo 65536. -/
theorem pcRel_eq_ofNat {k : Nat} (off : BitVec k) (s : State) :
    pcRel off s = BitVec.ofNat 16 ((s.pc.toNat + (sext16 off).toNat) % 65536) :=
  word_add_eq_ofNat s.pc (sext16 off)

/-! ### The statements -/

/-- Settles O9: BR is a jump whose target its test selects; the test holds when the mask names the flag. -/
theorem branchIsTakenWhenItsMaskMeetsTheFlag : Obligations.BranchIsTakenWhenItsMaskMeetsTheFlag :=
  ⟨decode_br, fun n z p off s => ⟨_, exec_br n z p off s,
    fun taken => (if_pos ((branchTaken_iff n z p s.cc).mpr taken)).trans (pcRel_eq_ofNat off s),
    fun untaken => if_neg (mt (branchTaken_iff n z p s.cc).mp untaken),
    setPc_frame _ s⟩⟩

/-- Settles O10: JMP is a jump to what the base register holds. -/
theorem jmpGoesWhereTheRegisterSays : Obligations.JmpGoesWhereTheRegisterSays :=
  ⟨decode_jmp, fun base s => ⟨_, rfl, setPc_pc s (s.x base), setPc_frame _ s⟩⟩

/-- Settles O11: JSR is the save and then a jump; the save leaves the pc that the target is relative to. -/
theorem jsrLinksAndGoesByOffset : Obligations.JsrLinksAndGoesByOffset :=
  ⟨decode_jsr, fun off s => ⟨_, rfl, saveLink_x_seven s, pcRel_eq_ofNat off (saveLink s), call_frame _ s⟩⟩

/-- Settles O12: the base register is read after the save, which changes what it holds only if it is R7. -/
theorem jsrrLinksBeforeItReadsTheBase : Obligations.JsrrLinksBeforeItReadsTheBase :=
  ⟨decode_jsrr, fun base s => ⟨_, rfl, saveLink_x_seven s,
    fun hother => saveLink_x_other s base hother,
    fun hseven => hseven ▸ saveLink_x_seven s,
    call_frame _ s⟩⟩

end Sys2Proof.Machine
end

section
/-! PROOFS. The statements of 42_load_store.md: LD (R100), LDI (R101), LDR (R102), LEA (R103), ST (R104), STI (R105) and
STR (R106). -/

namespace Sys2Proof.Machine

/-! ### Frames joined -/

theorem SameRegsExcept.trans {ds : List Reg} {s t u : State} (h : SameRegsExcept ds s t) (h' : SameRegsExcept ds t u) :
    SameRegsExcept ds s u :=
  fun r hr => (h' r hr).trans (h r hr)

theorem SameRun.trans {s t u : State} (h : SameRun s t) (h' : SameRun t u) : SameRun s u := by
  obtain ⟨hrun, hpending, hhost⟩ := h
  obtain ⟨hrun', hpending', hhost'⟩ := h'
  exact ⟨hrun'.trans hrun, hpending'.trans hpending, hhost'.trans hhost⟩

/-! ### What a bus read, a load and a store do -/

/-- A bus read changes memory and the input queue at most (R41, R42). -/
theorem memRead_frame (ds : List Reg) (a : Word) (s : State) :
    SameRegsExcept ds s (memRead a s).2 ∧ (memRead a s).2.cc = s.cc ∧ (memRead a s).2.pc = s.pc ∧
    (memRead a s).2.out = s.out ∧ SameRun s (memRead a s).2 :=
  ⟨fun r _ => memRead_x a s r, memRead_cc a s, memRead_pc a s, memRead_out a s,
    memRead_run a s, memRead_pending a s, memRead_host a s⟩

/-- A load puts the word of its bus read in its register, classifies it, and otherwise leaves what the read leaves. -/
theorem loadFrom_frame (dr : Reg) (ea : Word) (s : State) :
    (loadFrom dr ea s).x dr = (memRead ea s).1 ∧ (loadFrom dr ea s).cc = classify ((loadFrom dr ea s).x dr) ∧
    SameRegsExcept [dr] s (loadFrom dr ea s) ∧ (loadFrom dr ea s).pc = s.pc ∧
    SameMemoryExcept [] (memRead ea s).2 (loadFrom dr ea s) ∧ SameStreams (memRead ea s).2 (loadFrom dr ea s) ∧
    (loadFrom dr ea s).out = s.out ∧ SameRun s (loadFrom dr ea s) := by
  obtain ⟨readRegs, -, readPc, readOut, readRun⟩ := memRead_frame [dr] ea s
  obtain ⟨hcc, hregs, hpc, hmem, ⟨hinQ, hout⟩, hrun⟩ := writeResult_frame dr (memRead ea s).1 (memRead ea s).2
  exact ⟨writeResult_x_same _ _ _, hcc, readRegs.trans hregs, hpc.trans readPc, hmem, ⟨hinQ, hout⟩, hout.trans readOut,
    readRun.trans hrun⟩

/-- A bus write puts its word at its address and changes no other (R43). -/
theorem memWrite_memory (a v : Word) (s : State) :
    (memWrite a v s).peek a = v ∧ SameMemoryExcept [a] s (memWrite a v s) :=
  ⟨poke_peek_same s a v, poke_memory a v (.of_mem rfl)⟩

/-- A bus write changes nothing but memory (R43). -/
theorem memWrite_frame (a v : Word) (s : State) :
    SameRegsExcept [] s (memWrite a v s) ∧ (memWrite a v s).cc = s.cc ∧ (memWrite a v s).pc = s.pc ∧
    SameStreams s (memWrite a v s) ∧ SameRun s (memWrite a v s) :=
  ⟨fun _ _ => poke_x .., poke_cc .., poke_pc .., ⟨poke_inQ .., poke_out ..⟩, poke_run .., poke_pending ..,
    poke_host ..⟩

/-- The address of LDR and STR as the rules write it, modulo 65536 (R107). -/
theorem baseOff_eq_ofNat (base : Reg) (off : BitVec 6) (s : State) :
    baseOff base off s = BitVec.ofNat 16 (((s.x base).toNat + (sext16 off).toNat) % 65536) :=
  word_add_eq_ofNat (s.x base) (sext16 off)

/-! ### The statements -/

/-- Settles O13: LD is a load from the PC-relative address. -/
theorem ldLoadsFromThePcRelativeAddress : Obligations.LdLoadsFromThePcRelativeAddress :=
  ⟨decode_ld, fun dr off s => ⟨_, rfl, loadFrom_frame dr (pcRel off s) s⟩⟩

/-- Settles O14: LDI is a load in the state that the pointer's read leaves, and that read has its own frame. -/
theorem ldiLoadsThroughAPointer : Obligations.LdiLoadsThroughAPointer := by
  refine ⟨decode_ldi, fun dr off s => ⟨_, rfl, (indirect off s).1, (indirect off s).2, rfl, ?_⟩⟩
  obtain ⟨ptrRegs, -, ptrPc, ptrOut, ptrRun⟩ := memRead_frame [dr] (pcRel off s) s
  obtain ⟨hx, hcc, hregs, hpc, hmem, hstreams, hout, hrun⟩ :=
    loadFrom_frame dr (indirect off s).1 (indirect off s).2
  exact ⟨hx, hcc, ptrRegs.trans hregs, hpc.trans ptrPc, hmem, hstreams, hout.trans ptrOut, ptrRun.trans hrun⟩

/-- Settles O15: LDR is a load whose address is made from the base of the state before it. -/
theorem ldrLoadsFromTheBaseAndOffset : Obligations.LdrLoadsFromTheBaseAndOffset :=
  ⟨decode_ldr, fun dr base off s => ⟨_, rfl, loadFrom_frame dr (baseOff base off s) s⟩⟩

/-- Settles O16: LEA is a flagged write of the address, with no access. -/
theorem leaLoadsTheAddressItself : Obligations.LeaLoadsTheAddressItself :=
  ⟨decode_lea, fun dr off s => ⟨_, rfl, (writeResult_x_same _ _ _).trans (pcRel_eq_ofNat off s),
    writeResult_frame dr (pcRel off s) s⟩⟩

/-- Settles O17: ST is a bus write at the PC-relative address. -/
theorem stStoresAtThePcRelativeAddress : Obligations.StStoresAtThePcRelativeAddress :=
  ⟨decode_st, fun sr off s => ⟨_, rfl,
    fun _ hea => hea ▸ ⟨pcRel_eq_ofNat off s, memWrite_memory (pcRel off s) (s.x sr) s⟩,
    memWrite_frame (pcRel off s) (s.x sr) s⟩⟩

/-- Settles O18: the write comes after the pointer's read, which keeps the register that is stored. -/
theorem stiStoresThroughAPointer : Obligations.StiStoresThroughAPointer := by
  refine ⟨decode_sti, fun sr off s => ⟨_, rfl, ?_⟩⟩
  obtain ⟨ptrRegs, ptrCc, ptrPc, ptrOut, ptrRun⟩ := memRead_frame [] (pcRel off s) s
  obtain ⟨hregs, hcc, hpc, ⟨hinQ, hout⟩, hrun⟩ :=
    memWrite_frame (indirect off s).1 ((indirect off s).2.x sr) (indirect off s).2
  obtain ⟨hword, hmem⟩ := memWrite_memory (indirect off s).1 ((indirect off s).2.x sr) (indirect off s).2
  refine ⟨fun ea u hread => ?stored, ptrRegs.trans hregs, hcc.trans ptrCc, hpc.trans ptrPc, hout.trans ptrOut,
    ptrRun.trans hrun⟩
  case stored =>
    obtain ⟨rfl, rfl⟩ := Prod.ext_iff.mp hread
    exact ⟨hword.trans (memRead_x _ s sr), hmem, hinQ⟩

/-- Settles O19: STR is a bus write at the base and offset. -/
theorem strStoresAtTheBaseAndOffset : Obligations.StrStoresAtTheBaseAndOffset :=
  ⟨decode_str, fun sr base off s => ⟨_, rfl,
    fun _ hea => hea ▸ ⟨baseOff_eq_ofNat base off s, memWrite_memory (baseOff base off s) (s.x sr) s⟩,
    memWrite_frame (baseOff base off s) (s.x sr) s⟩⟩

end Sys2Proof.Machine
end

section
/-! PROOFS. The statements of 43_trap.md: TRAP's dispatch (R120), its six service routines (R122 to R127), an undefined
vector (R128), and how an unfinished string routine ends or goes on for ever (R195 d). -/

namespace Sys2Proof.Machine

/-! ### The link and the dispatch (R120) -/

/-- TRAP's link changes R7 and nothing else: it is a call that goes to the pc it is at. -/
theorem saveLink_frame (s : State) :
    (saveLink s).x 7 = s.pc ∧ SameRegsExcept [7] s (saveLink s) ∧ (saveLink s).cc = s.cc ∧ (saveLink s).pc = s.pc ∧
    SameMemoryExcept [] s (saveLink s) ∧ SameStreams s (saveLink s) ∧ SameRun s (saveLink s) := by
  obtain ⟨hregs, hcc, hmem, hstreams, hrun⟩ := call_frame s.pc s
  exact ⟨saveLink_x_seven s, hregs, hcc, saveLink_pc s, hmem, hstreams, hrun⟩

/-- No routine writes the link register. -/
theorem trapDispatch_x_link (v : Byte) (s : State) : (trapDispatch v s).x config.linkReg = s.x config.linkReg :=
  have hne : config.linkReg ≠ config.trapArgReg := by decide
  refineTrap_cases (fun v _ => (trapDispatch v s).x config.linkReg = s.x config.linkReg)
    (getc := (getcRead_reads s).x_other hne)
    (out := rfl)
    (puts := (putsFrom_io _ s).x _)
    (in_ := (runIn_reads s).x_other hne)
    (putsp := (putspFrom_io _ s).x _)
    (halt := rfl)
    (undef := fun _ hv => by rw [trapDispatch_undefined hv])
    v

/-- The row that a vector selects acts as the general row with that vector. -/
theorem exec_refineTrap (v : Byte) (s : State) : exec (refineTrap v) s = exec (.trap v) s :=
  refineTrap_cases (fun v i => exec i s = exec (.trap v) s) rfl rfl rfl rfl rfl rfl
    (fun _ hv => congrArg Host.Outcome.next (trapDispatch_undefined hv (saveLink s)).symm) v

theorem decode_trap_of_vector {w : Word} {v : Byte} (hop : opcodeOf w = config.opTrap)
    (hv : w.extractLsb' 0 8 = v) : decode w = refineTrap v :=
  hv ▸ decode_trap w hop

/-- Settles O20: the selected row is the dispatch after the link, and no routine writes R7 or moves the pc. -/
theorem trapLinksAndSelectsByItsVector : Obligations.TrapLinksAndSelectsByItsVector :=
  ⟨decode_trap, fun v s => ⟨_, rfl, exec_refineTrap v s,
    (trapDispatch_x_link v (saveLink s)).trans (saveLink_x_link s), onlyJumpsMoveThePc (.trap v) s _ rfl rfl⟩⟩

/-- Settles O28: the undefined row is the link alone, and so is the general row with such a vector. -/
theorem undefinedVectorOnlyWritesR7 : Obligations.UndefinedVectorOnlyWritesR7 :=
  ⟨fun w hop hv => (decode_trap w hop).trans (refineTrap_undefined _ hv),
    fun _ s hv => ⟨_, rfl, congrArg Host.Outcome.next (trapDispatch_undefined hv (saveLink s)), saveLink_frame s⟩⟩

/-! ### OUT (R123) and HALT (R127) -/

/-- Settles O22: OUT is the link and then output, which reads R0 as it was. -/
theorem outEmitsTheLowByteOfR0 : Obligations.OutEmitsTheLowByteOfR0 := by
  refine ⟨fun w => decode_trap_of_vector, fun s => ?_⟩
  obtain ⟨hlink, hregs, hcc, hpc, hmem, ⟨hinQ, -⟩, hrun⟩ := saveLink_frame s
  have hout : ((saveLink s).emit [lowByte ((saveLink s).x config.trapArgReg)]).out =
      s.out ++ [lowByte (s.x config.trapArgReg)] := by
    rw [emit_out, saveLink_out, saveLink_x_arg]
  exact ⟨_, rfl, hlink, hout, hregs, hcc, hpc, hmem, hinQ, hrun⟩

/-- Settles O27: HALT is the link, the notice and the run state. -/
theorem haltPrintsItsNoticeAndHalts : Obligations.HaltPrintsItsNoticeAndHalts := by
  refine ⟨fun w => decode_trap_of_vector, fun s => ?_⟩
  obtain ⟨hlink, hregs, hcc, hpc, hmem, ⟨hinQ, -⟩, -, hpending, hhost⟩ := saveLink_frame s
  have hout : ((saveLink s).emit config.haltNotice).out = s.out ++ config.haltNotice := by
    rw [emit_out, saveLink_out]
  exact ⟨_, rfl, setRun_run _ _, hlink, hout, hregs, hcc, hpc, hmem, hinQ, hpending, hhost⟩

/-! ### GETC (R122) and IN (R125) -/

/-- A character widened to a word is never negative. -/
theorem classify_zext16 (b : Byte) : classify (zext16 b) = if b = 0 then .zero else .positive := by
  split
  · next hb => subst hb; rfl
  · next hb =>
    have hbit : (zext16 b).getLsbD 15 = false := by
      rw [zext16, BitVec.getLsbD_setWidth, BitVec.getLsbD_of_ge b 15 (by decide), Bool.and_false]
    exact classify_positive (zext16_ne_zero b hb) hbit

/-- What is delivered to R0, the flag it sets, and the frame. -/
theorem deliverChar_frame (b : Byte) (s : State) :
    ((deliverChar b s).x 0).toNat = b.toNat ∧ (deliverChar b s).cc = (if b = 0 then .zero else .positive) ∧
    SameRegsExcept [0] s (deliverChar b s) ∧ (deliverChar b s).pc = s.pc ∧ SameMemoryExcept [] s (deliverChar b s) ∧
    SameStreams s (deliverChar b s) ∧ SameRun s (deliverChar b s) := by
  obtain ⟨-, hframe⟩ := writeResult_frame config.trapArgReg (zext16 b) s
  have hx : (deliverChar b s).x config.trapArgReg = zext16 b := writeResult_x_same _ _ _
  have hcc : (deliverChar b s).cc = classify (zext16 b) := writeResult_cc _ _ _
  exact ⟨(congrArg BitVec.toNat hx).trans (zext16_toNat b), hcc.trans (classify_zext16 b), hframe⟩

theorem SameRegsExcept.append {ds es : List Reg} {s t u : State} (h : SameRegsExcept ds s t)
    (h' : SameRegsExcept es t u) : SameRegsExcept (ds ++ es) s u := fun r hr =>
  (h' r fun hes => hr (List.mem_append_right ds hes)).trans (h r fun hds => hr (List.mem_append_left es hds))

/-- A character delivered after the link, in a state that has the link's registers, pc and memory. -/
theorem deliverChar_after_link (b : Byte) {s u : State} (hregs : u.regs = (saveLink s).regs) (hpc : u.pc = s.pc)
    (hmem : u.mem = s.mem) :
    (deliverChar b u).x 7 = s.pc ∧ ((deliverChar b u).x 0).toNat = b.toNat ∧
    (deliverChar b u).cc = (if b = 0 then .zero else .positive) ∧ SameRegsExcept [7, 0] s (deliverChar b u) ∧
    (deliverChar b u).pc = s.pc ∧ SameMemoryExcept [] s (deliverChar b u) ∧ (deliverChar b u).inQ = u.inQ ∧
    (deliverChar b u).out = u.out ∧ (deliverChar b u).run = u.run ∧ (deliverChar b u).host = u.host ∧
    (deliverChar b u).pending = u.pending := by
  obtain ⟨hlink, linkRegs, -⟩ := saveLink_frame s
  obtain ⟨hchar, hcc, charRegs, charPc, charMem, ⟨hinQ, hout⟩, hrun, hpending, hhost⟩ := deliverChar_frame b u
  have hx (r : Reg) : u.x r = (saveLink s).x r := congrArg (fun regs => regs.get r.toFin) hregs
  have hseven : (deliverChar b u).x 7 = u.x 7 := charRegs 7 (by decide)
  have uRegs : SameRegsExcept [7] s u := fun r hr => (hx r).trans (linkRegs r hr)
  exact ⟨hseven.trans ((hx 7).trans hlink), hchar, hcc, uRegs.append charRegs, charPc.trans hpc,
    (SameMemoryExcept.of_mem hmem).trans charMem, hinQ, hout, hrun, hhost, hpending⟩

/-- Settles O21: the blocking read after the link, by whether a character waits. -/
theorem getcTakesOneCharacter : Obligations.GetcTakesOneCharacter := by
  refine ⟨fun w => decode_trap_of_vector, fun s b rest hq => ?deliver, fun s hq => ?wait⟩
  case deliver =>
    exact ⟨_, congrArg Host.Outcome.next (getcRead_take (saveLink s) b rest hq),
      deliverChar_after_link b rfl rfl rfl⟩
  case wait =>
    obtain ⟨hlink, hregs, hcc, hpc, hmem, hstreams, hrun, -, hhost⟩ := saveLink_frame s
    exact ⟨_, congrArg Host.Outcome.next (getcRead_wait (saveLink s) hq),
      hlink, hregs, hcc, hpc, hmem, hstreams, hrun, hhost, rfl⟩

/-- Settles O24: the prompt and the blocking read after the link, by whether a character waits. -/
theorem inPromptsEchoesAndStores : Obligations.InPromptsEchoesAndStores := by
  refine ⟨fun w => decode_trap_of_vector, fun s b rest hq => ?deliver, fun s hq => ?wait⟩
  case deliver =>
    exact ⟨_, congrArg Host.Outcome.next (inRead_take ((saveLink s).emit config.inPrompt) b rest hq),
      deliverChar_after_link b rfl rfl rfl⟩
  case wait =>
    obtain ⟨hlink, hregs, hcc, hpc, hmem, ⟨hinQ, -⟩, hrun, -, hhost⟩ := saveLink_frame s
    exact ⟨_, congrArg Host.Outcome.next (inRead_wait ((saveLink s).emit config.inPrompt) hq),
      hlink, rfl, hregs, hcc, hpc, hmem, hinQ.trans hq, hrun, hhost, rfl⟩

/-! ### PUTS and PUTSP as one routine -/

/-- The two string routines: the instruction, what it emits for a word, and its unfinished condition. -/
inductive StringRoutine : Instr → (Word → List Byte) → (Word → Routine) → Prop where
  | puts : StringRoutine .puts putsChars .puts
  | putsp : StringRoutine .putsp putspChars .putsp

section
variable {i : Instr} {chars : Word → List Byte} {routine : Word → Routine} (h : StringRoutine i chars routine)
include h

/-- A lap of a string routine is its loop, and then it is unfinished where the loop is. -/
theorem StringRoutine.resume_eq (a : Word) (s : State) :
    resume (routine a) s = (stringLoop chars config.memWords a s).2.setPending
      ((stringLoop chars config.memWords a s).1.map routine) := by
  cases h with
  | puts => exact putsFrom_eq a s
  | putsp => exact putspFrom_eq a s

/-- The TRAP is the link, and then a lap from the address in R0. -/
theorem StringRoutine.exec_eq (s : State) : exec i s = .next (resume (routine (s.x 0)) (saveLink s)) := by
  have hexec : exec i s = .next (resume (routine ((saveLink s).x config.trapArgReg)) (saveLink s)) := by
    cases h with
    | puts => rfl
    | putsp => rfl
  rw [hexec, saveLink_x_arg]
  rfl

theorem StringRoutine.chars_ne_nil (w : Word) : chars w ≠ [] := by
  cases h with
  | puts => exact List.cons_ne_nil _ _
  | putsp => unfold putspChars; split <;> exact List.cons_ne_nil _ _

/-! ### A lap and the loop's relations (R124, R126) -/

theorem StringRoutine.resume_of_run {a : Word} {s t : State} {n : Nat} (hn : n ≤ config.memWords)
    (hrun : StringRun chars n a s t) : resume (routine a) s = t.setPending none := by
  rw [h.resume_eq, stringLoop_of_run chars hrun _ hn]
  rfl

theorem StringRoutine.resume_of_reads {a : Word} {s t : State} (hreads : StringReads chars config.memWords a s t) :
    resume (routine a) s = t.setPending (some (routine a)) := by
  rw [h.resume_eq, stringLoop_of_reads chars hreads, lap_address]
  rfl

theorem StringRoutine.resume_of_no_run {a : Word} {s : State}
    (hno : ∀ n t, n ≤ config.memWords → ¬ StringRun chars n a s t) :
    (resume (routine a) s).pending = some (routine a) := by
  rcases stringRun_or_reads chars config.memWords a s with ⟨n, t, hn, hrun⟩ | ⟨t, hreads⟩
  · exact absurd hrun (hno n t hn)
  · rw [h.resume_of_reads hreads, setPending_pending]

theorem StringRoutine.exec_of_run (s t : State) (n : Nat) (hn : n ≤ config.memWords)
    (hrun : StringRun chars n (s.x 0) (saveLink s) t) : exec i s = .next (t.setPending none) := by
  rw [h.exec_eq, h.resume_of_run hn hrun]

theorem StringRoutine.exec_of_reads (s t : State) (hreads : StringReads chars config.memWords (s.x 0) (saveLink s) t) :
    exec i s = .next (t.setPending (some (routine (s.x 0)))) := by
  rw [h.exec_eq, h.resume_of_reads hreads]

theorem StringRoutine.exec_of_no_run (s : State)
    (hno : ∀ n t, n ≤ config.memWords → ¬ StringRun chars n (s.x 0) (saveLink s) t) :
    ∃ u, exec i s = .next u ∧ u.pending = some (routine (s.x 0)) :=
  ⟨_, h.exec_eq s, h.resume_of_no_run hno⟩

end

/-- A loop that ends after more than `m` reads has made `m` reads first, and ends from where they stopped. -/
theorem StringRun.split {chars : Word → List Byte} {m n : Nat} {a : Word} {s t : State}
    (hrun : StringRun chars (m + (n + 1)) a s t) :
    ∃ u, StringReads chars m a s u ∧ StringRun chars (n + 1) (a + BitVec.ofNat 16 m) u t := by
  induction m generalizing a s with
  | zero => exact ⟨s, .refl a s, by simpa using hrun⟩
  | succ m ih =>
    have hcount : m + 1 + (n + 1) = m + (n + 1) + 1 := by omega
    rw [hcount] at hrun
    cases hrun with
    | more hz hrest =>
      obtain ⟨u, hreads, hend⟩ := ih hrest
      exact ⟨u, .more hz hreads, word_step a m ▸ hend⟩

/-- Settles O26: a lap by the relation that holds of it, for the TRAP and for what goes on; and a long loop splits. -/
theorem stringRoutinesFollowTheirLoop : Obligations.StringRoutinesFollowTheirLoop :=
  have low := StringRoutine.puts
  have packed := StringRoutine.putsp
  ⟨low.exec_of_run, packed.exec_of_run, low.exec_of_reads, packed.exec_of_reads, low.exec_of_no_run,
    packed.exec_of_no_run,
    fun _ _ _ _ hn => ⟨low.resume_of_run hn, packed.resume_of_run hn⟩,
    fun _ _ _ => ⟨low.resume_of_reads, packed.resume_of_reads⟩,
    fun _ _ => ⟨low.resume_of_no_run, packed.resume_of_no_run⟩,
    fun chars a s => stringRun_or_reads chars config.memWords a s,
    fun _ _ a _ _ hrun => by simpa only [lap_address] using hrun.split⟩

/-! ### Strings that do not cross the status address -/

theorem emit_nil (s : State) : s.emit [] = s := by simp [State.emit]

theorem emit_emit (s : State) (bs cs : List Byte) : (s.emit bs).emit cs = s.emit (bs ++ cs) := by simp [State.emit]

section
variable (chars : Word → List Byte) {a : Word} {s : State} {k : Nat}

/-- Reads away from the status address, none of which finds the zero word, emit each word's characters in order. -/
theorem stringReads_emit (ha : ∀ j, j < k → a + BitVec.ofNat 16 j ≠ config.kbsrAddr)
    (hz : ∀ j, j < k → s.peek (a + BitVec.ofNat 16 j) ≠ 0) :
    StringReads chars k a s (s.emit ((List.range k).flatMap fun j => chars (s.peek (a + BitVec.ofNat 16 j)))) := by
  induction k with
  | zero => simpa [emit_nil] using StringReads.refl a s
  | succ k ih =>
    have hfirst := ih (fun j hj => ha j (by omega)) (fun j hj => hz j (by omega))
    refine hfirst.trans (.more ?nonzero ?rest)
    all_goals rw [memRead_plain _ _ (ha k (by omega))]
    case nonzero => exact hz k (by omega)
    case rest => simpa [emit_emit, List.range_succ] using StringReads.refl _ _

/-- The same reads, and then the zero word, are the whole loop. -/
theorem stringRun_emit (ha : ∀ j, j ≤ k → a + BitVec.ofNat 16 j ≠ config.kbsrAddr)
    (hz : ∀ j, j < k → s.peek (a + BitVec.ofNat 16 j) ≠ 0) (hend : s.peek (a + BitVec.ofNat 16 k) = 0) :
    StringRun chars (k + 1) a s (s.emit ((List.range k).flatMap fun j => chars (s.peek (a + BitVec.ofNat 16 j)))) := by
  have hreads := stringReads_emit chars (fun j hj => ha j (Nat.le_of_lt hj)) hz
  have hlast := memRead_plain (a + BitVec.ofNat 16 k)
    (s.emit ((List.range k).flatMap fun j => chars (s.peek (a + BitVec.ofNat 16 j)))) (ha k (Nat.le_refl k))
  have hstop := StringRun.stop (chars := chars) ((congrArg Prod.fst hlast).trans hend)
  rw [hlast] at hstop
  exact hreads.run hstop

end

/-- A string routine on such a string emits its words' characters, and otherwise changes only R7 and its own condition. -/
theorem StringRoutine.exec_plain {i : Instr} {chars : Word → List Byte} {routine : Word → Routine}
    (h : StringRoutine i chars routine) {s : State} {k : Nat} (hk : k < 65536)
    (ha : ∀ j, j ≤ k → s.x 0 + BitVec.ofNat 16 j ≠ config.kbsrAddr)
    (hz : ∀ j, j < k → s.peek (s.x 0 + BitVec.ofNat 16 j) ≠ 0) (hend : s.peek (s.x 0 + BitVec.ofNat 16 k) = 0) :
    ∃ t, exec i s = .next t ∧ t.x 7 = s.pc ∧
      t.out = s.out ++ (List.range k).flatMap (fun j => chars (s.peek (s.x 0 + BitVec.ofNat 16 j))) ∧
      SameRegsExcept [7] s t ∧ t.cc = s.cc ∧ t.pc = s.pc ∧ SameMemoryExcept [] s t ∧ t.inQ = s.inQ ∧
      t.run = s.run ∧ t.host = s.host ∧ t.pending = none := by
  have hrun := stringRun_emit chars (s := saveLink s) ha hz hend
  obtain ⟨hlink, hregs, hcc, hpc, hmem, ⟨hinQ, -⟩, hrunState, -, hhost⟩ := saveLink_frame s
  exact ⟨_, h.exec_of_run s _ _ hk hrun, hlink, rfl, hregs, hcc, hpc, hmem, hinQ, hrunState, hhost, rfl⟩

/-- Settles O23: PUTS emits one character for each word. -/
theorem putsEmitsOneByteAWord : Obligations.PutsEmitsOneByteAWord := by
  intro s k hk ha hz hend
  rw [List.map_eq_flatMap]
  exact StringRoutine.puts.exec_plain hk ha hz hend

/-- What PUTSP emits for a word, as R126 packs it: the low byte, and the high byte unless it is zero. -/
theorem putspChars_eq :
    putspChars = fun w => w.extractLsb' 0 8 :: [w.extractLsb' 8 8].filter (fun b => b != 0) := by
  funext w
  change putspChars w = lowByte w :: [highByte w].filter (fun b => b != 0)
  by_cases hw : highByte w = 0
  · simp [putspChars, hw]
  · have hkeep : [highByte w].filter (fun b => b != 0) = [highByte w] :=
      List.filter_cons_of_pos (bne_iff_ne.mpr hw)
    rw [putspChars, if_neg hw, hkeep]

/-- Settles O25: PUTSP emits the packed characters of each word. -/
theorem putspEmitsPackedBytes : Obligations.PutspEmitsPackedBytes := by
  intro s k hk ha hz hend
  have hexec := StringRoutine.putsp.exec_plain hk ha hz hend
  rw [putspChars_eq] at hexec
  exact hexec

/-! ### Steps inside a string routine -/

theorem core_run_succ {M : Host.Core} {s t : M.State} (h : M.step s = .next t) (n : Nat) :
    M.run (n + 1) s = M.run n t := by
  rw [Host.Core.run, h]

theorem stepsFrom_succ {s t : State} (h : step s = .next t) (n : Nat) : stepsFrom (n + 1) s = stepsFrom n t :=
  core_run_succ (M := Sys2Proof.core) h n

/-- A state inside PUTS or PUTSP, as one case. -/
theorem inside_string_routine {s : State} {a : Word}
    (h : s.pending = some (.puts a) ∨ s.pending = some (.putsp a)) :
    ∃ i chars routine, StringRoutine i chars routine ∧ s.pending = some (routine a) :=
  h.elim (fun hputs => ⟨_, _, _, .puts, hputs⟩) (fun hputsp => ⟨_, _, _, .putsp, hputsp⟩)

/-! ### With no more input, strings end (R42, R124, R126) -/

theorem stringReads_io {chars : Word → List Byte} {n : Nat} {a : Word} {s t : State}
    (h : StringReads chars n a s t) : IoFrame s t := by
  have hio := stringLoop_io chars n a s
  rwa [stringLoop_of_reads chars h] at hio

theorem stringReads_host {chars : Word → List Byte} {n : Nat} {a : Word} {s t : State}
    (h : StringReads chars n a s t) : t.host = s.host := by
  have hhost := stringLoop_keeps (fun u => u.host = s.host) chars (fun a u hu => (memRead_host a u).trans hu)
    (fun _ _ hu => hu) n a s rfl
  rwa [stringLoop_of_reads chars h] at hhost

/-- A read of the status address that returns another word than zero has taken a character. -/
theorem memRead_status_takes {s : State} (h : (memRead config.kbsrAddr s).1 ≠ 0) :
    (memRead config.kbsrAddr s).2.inQ.length < s.inQ.length := by
  have hq : s.inQ ≠ [] := fun hq => h (by rw [memRead_status_empty hq])
  rw [memRead_status_inQ s hq, List.length_tail]
  exact Nat.sub_one_lt (mt List.length_eq_zero_iff.mp hq)

/-- Reads that cross the status address and do not end the loop take a character. -/
theorem stringReads_takes {chars : Word → List Byte} {n : Nat} {a : Word} {s t : State}
    (h : StringReads chars n a s t) {j : Nat} (hj : j < n) (hstatus : a + BitVec.ofNat 16 j = config.kbsrAddr) :
    t.inQ.length < s.inQ.length := by
  induction h generalizing j with
  | refl => omega
  | @more n a s t hz hrest ih =>
    cases j with
    | zero =>
      have ha : a = config.kbsrAddr := by simpa using hstatus
      subst ha
      exact Nat.lt_of_le_of_lt (stringReads_io hrest).inQ.length_le (memRead_status_takes hz)
    | succ j =>
      have hlater := ih (j := j) (by omega) ((word_step a j).trans hstatus)
      exact Nat.lt_of_lt_of_le hlater (memRead_io a s).inQ.length_le

/-- A lap crosses the status address, so one that does not end the loop takes a character. -/
theorem lap_takes {chars : Word → List Byte} {a : Word} {s t : State}
    (h : StringReads chars config.memWords a s t) : t.inQ.length < s.inQ.length :=
  stringReads_takes h (config.kbsrAddr - a).isLt (before_status a).2

/-- A step inside a string routine with the host idle ends it, or goes on with one character fewer at least. -/
theorem StringRoutine.step_idle {i : Instr} {chars : Word → List Byte} {routine : Word → Routine}
    (h : StringRoutine i chars routine) {s : State} {a : Word} (hrun : s.run = .running)
    (hhost : s.host = HostPlan.idle) (hpending : s.pending = some (routine a)) :
    ∃ t, step s = .next t ∧ (t.pending = none ∨
      t.run = .running ∧ t.host = HostPlan.idle ∧ t.pending = some (routine a) ∧ t.inQ.length < s.inQ.length) := by
  refine ⟨_, step_resumes hrun (hostTurn_idle hhost) hpending, ?_⟩
  rcases stringRun_or_reads chars config.memWords a s with ⟨n, t, hn, hends⟩ | ⟨t, hreads⟩
  · exact .inl (by rw [h.resume_of_run hn hends, setPending_pending])
  · rw [h.resume_of_reads hreads]
    have htakes := lap_takes hreads
    exact .inr ⟨(stringReads_io hreads).run.trans hrun, (stringReads_host hreads).trans hhost, rfl, htakes⟩

/-- At most a step for each character that waits, and one more, end a string routine. -/
theorem StringRoutine.ends_idle {i : Instr} {chars : Word → List Byte} {routine : Word → Routine}
    (h : StringRoutine i chars routine) (a : Word) (s : State) (hrun : s.run = .running)
    (hhost : s.host = HostPlan.idle) (hpending : s.pending = some (routine a)) :
    ∃ n t, n ≤ s.inQ.length + 1 ∧ stepsFrom n s = .next t ∧ t.pending = none := by
  obtain ⟨t, hstep, hended | ⟨trun, thost, tpending, hfewer⟩⟩ := h.step_idle hrun hhost hpending
  · exact ⟨1, t, by omega, stepsFrom_succ hstep 0, hended⟩
  · obtain ⟨n, u, hn, hsteps, hended⟩ := StringRoutine.ends_idle h a t trun thost tpending
    exact ⟨n + 1, u, by omega, (stepsFrom_succ hstep n).trans hsteps, hended⟩
termination_by s.inQ.length

/-- Settles O51: by induction on the characters that wait, each step that does not end the routine taking one. -/
theorem stringsEndOnceInputRunsDry : Obligations.StringsEndOnceInputRunsDry := by
  intro s a hrun hhost hinside
  obtain ⟨i, chars, routine, h, hpending⟩ := inside_string_routine hinside
  exact h.ends_idle a s hrun hhost hpending

/-! ### With input for ever and no zero word, strings never end (R195 d, U7) -/

/-- The host types at least one character before each step, for ever, and none of them zero. -/
structure HostPlan.TypesForever (p : HostPlan) : Prop where
  again : p.forever ≠ []
  types : ∀ m ∈ p.once ++ p.forever, ∃ bytes, m = .append bytes ∧ bytes ≠ [] ∧ ∀ c ∈ bytes, c ≠ 0

/-- The next move of a plan that repeats is one of its moves, and the plan after it has no others. -/
theorem nextMove_mem {p : HostPlan} (h : p.forever ≠ []) :
    ∃ m plan, nextMove p = some (m, plan) ∧ m ∈ p.once ++ p.forever ∧ plan.forever = p.forever ∧
      plan.once ++ plan.forever ⊆ p.once ++ p.forever := by
  obtain ⟨once, again⟩ := p
  cases once with
  | cons m rest => exact ⟨m, _, nextMove_once m rest again, by simp, rfl, List.subset_cons_self _ _⟩
  | nil =>
    obtain ⟨m, rest, hagain⟩ := List.exists_cons_of_ne_nil h
    have hagain : again = m :: rest := hagain
    subst hagain
    exact ⟨m, _, nextMove_forever m rest, by simp, rfl,
      List.append_subset_of_subset_of_subset (List.subset_cons_self m rest) (List.Subset.refl _)⟩

theorem HostPlan.TypesForever.nextMove {p : HostPlan} (h : p.TypesForever) :
    ∃ bytes plan, Machine.nextMove p = some (.append bytes, plan) ∧ bytes ≠ [] ∧ (∀ c ∈ bytes, c ≠ 0) ∧
      plan.TypesForever := by
  obtain ⟨m, plan, hnext, hm, hforever, hsub⟩ := nextMove_mem h.again
  obtain ⟨bytes, rfl, hbytes, hnonzero⟩ := h.types m hm
  exact ⟨bytes, plan, hnext, hbytes, hnonzero, hforever ▸ h.again, fun m' hm' => h.types m' (hsub hm')⟩

/-- A machine inside the routine `r` whose string cannot end: no zero word, and a host that types for ever. -/
structure InsideEndless (r : Routine) (s : State) : Prop where
  running : s.run = .running
  inside : s.pending = some r
  noZero : NoZeroInSight s
  host : s.host.TypesForever

/-- The host's turn keeps such a machine one, and leaves a character waiting. -/
theorem InsideEndless.hostTurn {r : Routine} {s : State} (hs : InsideEndless r s) :
    ∃ u, Machine.hostTurn s = some u ∧ InsideEndless r u ∧ u.inQ ≠ [] := by
  obtain ⟨bytes, plan, hnext, hbytes, hnonzero, hplan⟩ := hs.host.nextMove
  obtain ⟨hmemory, hqueue⟩ := hs.noZero
  have harrived (c : Byte) (hc : c ∈ s.inQ ++ bytes) : c ≠ 0 := (List.mem_append.mp hc).elim (hqueue c) (hnonzero c)
  exact ⟨_, hostTurn_append hnext, ⟨hs.running, hs.inside, ⟨hmemory, harrived⟩, hplan⟩,
    List.append_ne_nil_of_right_ne_nil _ hbytes⟩

/-- A step of such a machine is a lap: it stays one, and emits at least a byte for each address. -/
theorem StringRoutine.step_endless {i : Instr} {chars : Word → List Byte} {routine : Word → Routine}
    (h : StringRoutine i chars routine) {a : Word} {s : State} (hs : InsideEndless (routine a) s) :
    ∃ t, step s = .next t ∧ InsideEndless (routine a) t ∧ s.out.length + config.memWords ≤ t.out.length := by
  obtain ⟨u, hturn, hu, hq⟩ := hs.hostTurn
  obtain ⟨t, hreads, hzero, -, ⟨-, -, -, trun, -, thost⟩, hgrows⟩ := lap_noZero chars h.chars_ne_nil a u hu.noZero hq
  have hstep := step_resumes hs.running hturn hu.inside
  rw [h.resume_of_reads hreads] at hstep
  rw [hostTurn_out hturn] at hgrows
  exact ⟨_, hstep, ⟨trun.trans hu.running, rfl, hzero, thost.symm ▸ hu.host⟩, hgrows⟩

theorem StringRoutine.steps_endless {i : Instr} {chars : Word → List Byte} {routine : Word → Routine}
    (h : StringRoutine i chars routine) {a : Word} (n : Nat) {s : State} (hs : InsideEndless (routine a) s) :
    ∃ t, stepsFrom n s = .next t ∧ InsideEndless (routine a) t ∧
      s.out.length + n * config.memWords ≤ t.out.length := by
  induction n generalizing s with
  | zero => exact ⟨s, rfl, hs, by omega⟩
  | succ n ih =>
    obtain ⟨t, hstep, ht, hlap⟩ := h.step_endless hs
    obtain ⟨u, hsteps, hu, hlaps⟩ := ih ht
    exact ⟨u, (stepsFrom_succ hstep n).trans hsteps, hu, by rw [Nat.succ_mul]; omega⟩

/-- Settles O58: being inside an endless string is kept by every step, and each step's lap emits. -/
theorem endlessStringsNeverEnd : Obligations.EndlessStringsNeverEnd := by
  intro s a hrun hinside hmemory hqueue hagain htypes n
  obtain ⟨i, chars, routine, h, hpending⟩ := inside_string_routine hinside
  obtain ⟨t, hsteps, ht, hgrows⟩ :=
    h.steps_endless n ⟨hrun, hpending, ⟨hmemory, hqueue⟩, ⟨hagain, htypes⟩⟩
  exact ⟨t, hsteps, ht.running, ht.inside.trans hpending.symm, hgrows⟩

end Sys2Proof.Machine
end

section
/-! PROOFS. The statements of 44_reserved_opcodes.md: the illegal-opcode exception (R140, R150, R151), as an instruction
and on the whole cycle. -/

namespace Sys2Proof.Machine

/-! ### The exception -/

/-- The exception ends the run and changes nothing else (R150, R151). -/
theorem raiseIllegalOpcode_frame (s : State) :
    (raiseIllegalOpcode s).run = .aborted ∧ SameRegsExcept [] s (raiseIllegalOpcode s) ∧
    (raiseIllegalOpcode s).cc = s.cc ∧ (raiseIllegalOpcode s).pc = s.pc ∧
    SameMemoryExcept [] s (raiseIllegalOpcode s) ∧ SameStreams s (raiseIllegalOpcode s) ∧
    (raiseIllegalOpcode s).pending = s.pending ∧ (raiseIllegalOpcode s).host = s.host :=
  ⟨setRun_run s .aborted, fun r _ => setRun_x s r .aborted, setRun_cc s .aborted, setRun_pc s .aborted,
    .of_mem (setRun_mem s .aborted), ⟨setRun_inQ s .aborted, setRun_out s .aborted⟩, setRun_pending s .aborted,
    setRun_host s .aborted⟩

/-- A word of either reserved opcode raises it (R140). -/
theorem exec_decode_reserved {w : Word} (h : opcodeOf w = config.opResA ∨ opcodeOf w = config.opResB) (s : State) :
    exec (decode w) s = .next (raiseIllegalOpcode s) := by
  rcases h with h | h
  · rw [decode_reservedA w h]; rfl
  · rw [decode_reservedB w h]; rfl

/-- Settles O29: both rows raise the exception, which changes the run state alone. -/
theorem reservedOpcodesAbort : Obligations.ReservedOpcodesAbort :=
  ⟨fun w => ⟨decode_reservedA w, decode_reservedB w⟩, fun s => ⟨_, rfl, rfl, raiseIllegalOpcode_frame s⟩⟩

/-! ### The cycle before it -/

/-- The host's move reaches no register, not the flag, and not the output (R28). -/
theorem hostTurn_frame {s u : State} (h : hostTurn s = some u) :
    SameRegsExcept [] s u ∧ u.cc = s.cc ∧ u.out = s.out := by
  rw [hostTurn_eq h]
  exact ⟨fun _ _ => rfl, rfl, rfl⟩

/-- A fetch increments the pc; everything else is as its bus read leaves it (R30, R56). -/
theorem fetch_frame (s : State) :
    SameRegsExcept [] s (fetch s).2 ∧ (fetch s).2.cc = s.cc ∧ (fetch s).2.pc = s.pc + 1 ∧ (fetch s).2.out = s.out ∧
    SameMemoryExcept [] (memRead s.pc s).2 (fetch s).2 ∧ (fetch s).2.inQ = (memRead s.pc s).2.inQ := by
  rw [fetch_eq]
  obtain ⟨readRegs, readCc, -, readOut, -⟩ := memRead_frame [] s.pc s
  obtain ⟨hregs, hcc, hmem, ⟨hinQ, hout⟩, -⟩ := setPc_frame (s.pc + 1) (memRead s.pc s).2
  exact ⟨readRegs.trans hregs, hcc.trans readCc, setPc_pc _ _, hout.trans readOut, hmem, hinQ⟩

/-- Settles O30: the step is the host's turn, the fetch and the exception, and each leaves what it should as it was. -/
theorem illegalOpcodeEndsTheRunPrecisely : Obligations.IllegalOpcodeEndsTheRunPrecisely := by
  intro s u hrun hturn hpending hreserved
  have hword : (fetch u).1 = (memRead u.pc u).1 := by rw [fetch_eq]
  have hstep : step s = .next (raiseIllegalOpcode (fetch u).2) := by
    rw [step_fetches hrun hturn hpending, hword, exec_decode_reserved hreserved]
  obtain ⟨turnRegs, turnCc, turnOut⟩ := hostTurn_frame hturn
  obtain ⟨fetchRegs, fetchCc, fetchPc, fetchOut, fetchMem, fetchInQ⟩ := fetch_frame u
  obtain ⟨haborted, hregs, hcc, hpc, hmem, ⟨hinQ, hout⟩, -⟩ := raiseIllegalOpcode_frame (fetch u).2
  have hterminal : (raiseIllegalOpcode (fetch u).2).run ≠ .running := by simp [haborted]
  exact ⟨_, hstep, step_terminal hterminal, haborted, hpc.trans fetchPc, turnRegs.trans (fetchRegs.trans hregs),
    hcc.trans (fetchCc.trans turnCc), hout.trans (fetchOut.trans turnOut), fetchMem.trans hmem, hinQ.trans fetchInQ⟩

end Sys2Proof.Machine
end

section
/-! PROOFS. The statements of 60_exceptions.md: the machine's invariant (R168), the final states (R169), blocked reads
(R168), and what can stop a step (R152, R155). -/

namespace Sys2Proof.Machine

/-! ### The invariant outside a routine -/

/-- With no routine unfinished, the invariant is the canonical form of memory. -/
theorem inv_of_no_routine {s : State} (hmem : s.mem.wf) (hpending : s.pending = none) : s.Inv where
  memory_wf := hmem
  pending_running h := absurd hpending h
  pending_link h := absurd hpending h
  puts_address _ h := by cases hpending ▸ h
  putsp_address _ h := by cases hpending ▸ h

section
variable {s : State} (hmem : s.mem.wf) (hpending : s.pending = none)
include hmem hpending

theorem loadFrom_inv (dr : Reg) (ea : Word) : (loadFrom dr ea s).Inv :=
  inv_of_no_routine (memRead_wf ea s hmem) ((memRead_pending ea s).trans hpending)

theorem memWrite_inv (a v : Word) : (memWrite a v s).Inv := inv_of_no_routine (memWrite_wf a v s hmem) hpending

end

/-! ### The invariant inside a routine: `s.setPending (some r)` is `s` inside `r` -/

theorem setPending_of_pending {s : State} {p : Option Routine} (h : s.pending = p) : s.setPending p = s := by
  rw [← h]; rfl

/-- After the link of a TRAP, the machine may be inside any routine whose string, if it has one, is at R0's address. -/
theorem saveLink_inside_inv {r : Routine} {s : State} (hmem : s.mem.wf) (hrun : s.run = .running)
    (hputs : ∀ a, r = .puts a → a = (saveLink s).x config.trapArgReg)
    (hputsp : ∀ a, r = .putsp a → a = (saveLink s).x config.trapArgReg) :
    ((saveLink s).setPending (some r)).Inv where
  memory_wf := hmem
  pending_running _ := hrun
  pending_link _ := saveLink_x_link s
  puts_address a h := hputs a (Option.some.inj h)
  putsp_address a h := hputsp a (Option.some.inj h)

section
variable {r : Routine} {s : State} (h : (s.setPending (some r)).Inv)
include h

/-- What keeps the registers, the pc, the run state and the canonical form keeps the invariant inside a routine. -/
theorem inside_inv_of_io {t : State} (io : IoFrame s t) (hmem : t.mem.wf) : (t.setPending (some r)).Inv where
  memory_wf := hmem
  pending_running hr := io.run.trans (h.pending_running hr)
  pending_link hr := (io.x _).trans ((h.pending_link hr).trans io.pc.symm)
  puts_address a hr := (h.puts_address a hr).trans (io.x _).symm
  putsp_address a hr := (h.putsp_address a hr).trans (io.x _).symm

theorem emit_inside_inv (bytes : List Byte) : ((s.emit bytes).setPending (some r)).Inv :=
  inside_inv_of_io h (emit_io bytes s) h.memory_wf

end

theorem stringLoop_wf (chars : Word → List Byte) (n : Nat) (a : Word) {s : State} (h : s.mem.wf) :
    (stringLoop chars n a s).2.mem.wf :=
  stringLoop_keeps (fun t => t.mem.wf) chars (fun a t ht => memRead_wf a t ht) (fun _ _ ht => ht) n a s h

/-- A lap ends its string, or stops a whole number of times round the address space: where it began. -/
theorem StringRoutine.resume_inv {i : Instr} {chars : Word → List Byte} {routine : Word → Routine}
    (h : StringRoutine i chars routine) {a : Word} {s : State} (hs : (s.setPending (some (routine a))).Inv) :
    (resume (routine a) s).Inv := by
  have hmem := stringLoop_wf chars config.memWords a (s := s) hs.memory_wf
  rw [h.resume_eq]
  cases hloop : (stringLoop chars config.memWords a s).1 with
  | none => exact inv_of_no_routine hmem rfl
  | some a' =>
    have hback : a' = a := (stringLoop_address _ _ _ _ _ hloop).trans (lap_address a)
    rw [hback]
    exact inside_inv_of_io hs (stringLoop_io _ _ _ _) hmem

/-- Going on with a routine, from a state that has the invariant inside it, ends with the invariant. -/
theorem resume_inv {r : Routine} {s : State} (h : (s.setPending (some r)).Inv) : (resume r s).Inv := by
  cases r with
  | getc =>
    cases hq : s.inQ with
    | nil => rwa [resume, getcRead_wait s hq]
    | cons b rest => rw [resume, getcRead_take s b rest hq]; exact inv_of_no_routine h.memory_wf rfl
  | in_ =>
    cases hq : s.inQ with
    | nil => rwa [resume, inRead_wait s hq]
    | cons b rest => rw [resume, inRead_take s b rest hq]; exact inv_of_no_routine h.memory_wf rfl
  | puts a => exact StringRoutine.puts.resume_inv h
  | putsp a => exact StringRoutine.putsp.resume_inv h

/-! ### The invariant over an instruction and over a step -/

section
variable {s : State} (hmem : s.mem.wf) (hrun : s.run = .running) (hpending : s.pending = none)
include hmem hrun hpending

/-- Each of TRAP's routines starts as it goes on: after the link, and IN after its prompt. -/
theorem trapDispatch_inv (v : Byte) : (trapDispatch v (saveLink s)).Inv :=
  refineTrap_cases (fun v _ => (trapDispatch v (saveLink s)).Inv)
    (getc := resume_inv (r := .getc) (saveLink_inside_inv hmem hrun nofun nofun))
    (out := inv_of_no_routine hmem hpending)
    (puts := resume_inv (r := .puts _) (saveLink_inside_inv hmem hrun (fun _ h => (Routine.puts.inj h).symm) nofun))
    (in_ := resume_inv (emit_inside_inv (saveLink_inside_inv (r := .in_) hmem hrun nofun nofun) config.inPrompt))
    (putsp := resume_inv (r := .putsp _) (saveLink_inside_inv hmem hrun nofun fun _ h => (Routine.putsp.inj h).symm))
    (halt := inv_of_no_routine hmem hpending)
    (undef := fun v hv => by
      rw [trapDispatch_undefined hv]
      exact inv_of_no_routine hmem hpending)
    v

/-- An instruction that starts with canonical memory in a running machine inside no routine ends with the invariant. -/
theorem exec_inv {i : Instr} {t : State} (h : exec i s = .next t) : t.Inv := by
  cases i with
  | br n z p off =>
    cases h
    split
    · exact inv_of_no_routine hmem hpending
    · exact inv_of_no_routine hmem hpending
  | addReg | addImm | andReg | andImm | not | lea | jsr | jsrr | jmp | reservedA | reservedB | trapUndefined =>
    cases h; exact inv_of_no_routine hmem hpending
  | ld | ldr => cases h; exact loadFrom_inv hmem hpending _ _
  | ldi => cases h; exact loadFrom_inv (memRead_wf _ s hmem) ((memRead_pending _ s).trans hpending) _ _
  | st | str => cases h; exact memWrite_inv hmem hpending _ _
  | sti => cases h; exact memWrite_inv (memRead_wf _ s hmem) ((memRead_pending _ s).trans hpending) _ _
  | trap v => cases h; exact trapDispatch_inv hmem hrun hpending v
  | getc => cases h; exact trapDispatch_inv hmem hrun hpending config.tvGetc
  | out => cases h; exact trapDispatch_inv hmem hrun hpending config.tvOut
  | puts => cases h; exact trapDispatch_inv hmem hrun hpending config.tvPuts
  | in_ => cases h; exact trapDispatch_inv hmem hrun hpending config.tvIn
  | putsp => cases h; exact trapDispatch_inv hmem hrun hpending config.tvPutsp
  | halt => cases h; exact trapDispatch_inv hmem hrun hpending config.tvHalt

end

/-- The host's move is to the input queue and the host's own plan. -/
theorem hostTurn_exists {s u : State} (h : hostTurn s = some u) :
    ∃ q plan, u = { s with inQ := q, host := plan } := ⟨_, _, hostTurn_eq h⟩

theorem hostTurn_inv {s u : State} (h : hostTurn s = some u) (hs : s.Inv) : u.Inv := by
  obtain ⟨q, plan, rfl⟩ := hostTurn_exists h
  obtain ⟨hmem, hrunning, hlink, hputs, hputsp⟩ := hs
  exact ⟨hmem, hrunning, hlink, hputs, hputsp⟩

theorem fetch_wf {s : State} (h : s.mem.wf) : (fetch s).2.mem.wf := by
  rw [fetch_eq]
  exact memRead_wf s.pc s h

theorem fetch_pending (s : State) : (fetch s).2.pending = s.pending := by simp [fetch_eq]

/-- Settles O48: by the three ways a step goes; the host's turn keeps the invariant, and so what follows it may run. -/
theorem stepKeepsTheStateWellFormed : Obligations.StepKeepsTheStateWellFormed := by
  intro s t hs h
  cases step_cases h with
  | terminal stopped same => exact same ▸ hs
  | @resumes u r running turn inside ends =>
    have hu : (u.setPending (some r)).Inv := (setPending_of_pending inside).symm ▸ hostTurn_inv turn hs
    exact ends ▸ resume_inv hu
  | @fetches u running turn inside ends =>
    have hrun : (fetch u).2.run = .running := by rw [fetch_run, hostTurn_run turn, running]
    exact exec_inv (fetch_wf (hostTurn_inv turn hs).memory_wf) hrun ((fetch_pending u).trans inside) ends

/-! ### Final states (R169) -/

theorem State.Terminal.not_running {s : State} (h : s.Terminal) : s.run ≠ .running := by
  rcases h with h | h
  · simp [h]
  · simp [h]

/-- Settles O42: by induction on the run, each of whose steps answers the terminal state itself. -/
theorem terminalStatesNeverChange : Obligations.TerminalStatesNeverChange := by
  intro s t hterminal hreaches
  induction hreaches with
  | refl s => rfl
  | @head s t u hstep _ ih =>
    rw [step_terminal hterminal.not_running] at hstep
    cases hstep
    exact ih hterminal

/-! ### Blocked reads (R168) -/

/-- What a step does that delivers a character: the delivery's frame, seen from the state before the host's turn. -/
theorem step_delivers {s : State} {b : Byte} {rest out : List Byte} {plan : HostPlan} (hrun : s.run = .running)
    (h : step s = .next (deliverChar b { s with out := out, pending := none, inQ := rest, host := plan })) :
    ∃ t, step s = .next t ∧ (t.x 0).toNat = b.toNat ∧ t.cc = (if b = 0 then .zero else .positive) ∧
      SameRegsExcept [0] s t ∧ t.pc = s.pc ∧ SameMemoryExcept [] s t ∧ t.inQ = rest ∧ t.out = out ∧
      t.run = .running ∧ t.pending = none := by
  obtain ⟨hchar, hcc, hregs, hpc, hmem, ⟨hinQ, hout⟩, trun, hpending, -⟩ :=
    deliverChar_frame b { s with out := out, pending := none, inQ := rest, host := plan }
  exact ⟨_, h, hchar, hcc, hregs, hpc, hmem, hinQ, hout, trun.trans hrun, hpending⟩

/-- Settles O43: the step is one more try of the read, on the queue that the host's turn leaves. -/
theorem blockedReadsWaitForACharacter : Obligations.BlockedReadsWaitForACharacter := by
  intro s u hrun hturn
  obtain ⟨q, plan, rfl⟩ := hostTurn_exists hturn
  refine ⟨fun hblocked hq => ?wait, fun b rest hblocked hq => ?getc, fun b rest hblocked hq => ?in_⟩
  case wait =>
    rcases hblocked with hgetc | hin
    · rw [step_resumes hrun hturn hgetc, resume, getcRead_wait _ hq]
      exact congrArg _ (setPending_of_pending hgetc)
    · rw [step_resumes hrun hturn hin, resume, inRead_wait _ hq]
      exact congrArg _ (setPending_of_pending hin)
  case getc =>
    have hstep := step_resumes hrun hturn hblocked
    rw [resume, getcRead_take _ b rest hq] at hstep
    exact step_delivers hrun hstep
  case in_ =>
    have hstep := step_resumes hrun hturn hblocked
    rw [resume, inRead_take _ b rest hq] at hstep
    exact step_delivers hrun hstep

/-! ### What stops a step (R152, R155) -/

theorem killable_iff (s : State) :
    killable s = true ↔ s.pending = none ∨ s.pending = some .getc ∨ s.pending = some .in_ := by
  unfold killable
  split <;> next h => simp [h]

/-- The host ends the run exactly where its next move is a kill and the machine may be killed. -/
theorem hostTurn_eq_none_iff (s : State) :
    hostTurn s = none ↔ (∃ plan, nextMove s.host = some (.kill, plan)) ∧ killable s = true := by
  unfold hostTurn
  split <;> next hmove => simp [hmove]

/-- A step answers a next state unless the host ends the run before it. -/
theorem step_answers {s u : State} (hturn : hostTurn s = some u) : ∃ t, step s = .next t := by
  by_cases hrun : s.run = .running
  · cases hpending : u.pending with
    | none => rw [step_fetches hrun hturn hpending]; exact exec_answers _ _
    | some r => exact ⟨_, step_resumes hrun hturn hpending⟩
  · exact ⟨s, step_terminal hrun⟩

theorem step_ne_refused (s : State) (r : Refusal) : step s ≠ .refused r := by
  intro h
  by_cases hrun : s.run = .running
  · cases hturn : hostTurn s with
    | none => rw [step_killed hrun hturn] at h; cases h
    | some u =>
      obtain ⟨t, ht⟩ := step_answers hturn
      rw [ht] at h; cases h
  · rw [step_terminal hrun] at h; cases h

theorem step_fault_iff (s : State) (f : Fault) :
    step s = .fault f ↔ f = .hostKill ∧ s.run = .running ∧ hostTurn s = none := by
  constructor
  · intro h
    obtain ⟨hrun, hturn, hf⟩ := step_fault h
    exact ⟨hf, hrun, hturn⟩
  · rintro ⟨rfl, hrun, hturn⟩
    exact step_killed hrun hturn

/-- Settles O44: every instruction and every routine answers, so a step stops only where the host's turn does. -/
theorem onlyTheHostStopsAStep : Obligations.OnlyTheHostStopsAStep :=
  ⟨exec_answers, step_ne_refused, fun s f => by rw [step_fault_iff, hostTurn_eq_none_iff, killable_iff]⟩

end Sys2Proof.Machine
end

section
/-! PROOFS. The statements of 70_reset_and_hazards.md: what an image puts into memory (R182 to R184), the order of the
images of a launch (R185, R186), and the invariant in every state of a run (R180). -/

namespace Sys2Proof.Machine

/-! ### The words of a byte stream (R183) -/

theorem wireWord_toNat (hi lo : Byte) : (wireWord hi lo).toNat = hi.toNat * 256 + lo.toNat := by
  rw [wireWord, BitVec.toNat_append, ← Nat.shiftLeft_add_eq_or_of_lt lo.isLt, Nat.shiftLeft_eq]

theorem wireWords_length (bytes : List Byte) : (wireWords bytes).length = bytes.length / 2 := by
  induction bytes using wireWords.induct with
  | case1 hi lo rest ih => simp only [wireWords, List.length_cons, ih]; omega
  | case2 => simp [wireWords]
  | case3 => rfl

/-- Word `k` of a stream is made of its bytes `2 * k` and `2 * k + 1`, when both are there. -/
theorem wireWords_getElem? {bytes : List Byte} {k : Nat} (h : 2 * k + 1 < bytes.length) :
    (wireWords bytes)[k]? = some (wireWord (bytes.getD (2 * k) 0) (bytes.getD (2 * k + 1) 0)) := by
  induction bytes using wireWords.induct generalizing k with
  | case1 hi lo rest ih =>
    cases k with
    | zero => rfl
    | succ k => exact ih (by simp only [List.length_cons] at h; omega)
  | case2 => simp at h
  | case3 => simp at h

theorem wireWords_getElem?_none {bytes : List Byte} {k : Nat} (h : bytes.length ≤ 2 * k + 1) :
    (wireWords bytes)[k]? = none :=
  List.getElem?_eq_none (by rw [wireWords_length]; omega)

/-! ### Writing words up to the top of the address space (R182, R184) -/

/-- An address below the first one keeps its word. -/
theorem loadWords_read_below {a x : Nat} (h : x < a) (ws : List Word) (m : Memory) :
    (loadWords a ws m).read x = m.read x := by
  induction ws generalizing a m with
  | nil => rfl
  | cons w ws ih =>
    rw [loadWords]
    split
    · rw [ih (Nat.lt_succ_of_lt h), Memory.read_write_other m a x w h.ne]
    · rfl

/-- Word `k` goes `k` above the first address, if that is inside the address space; without a word `k`, the word that
is there stays. -/
theorem loadWords_read_add {a k : Nat} (h : a + k < config.memWords) (ws : List Word) (m : Memory) :
    (loadWords a ws m).read (a + k) = ws[k]?.getD (m.read (a + k)) := by
  induction ws generalizing a k m with
  | nil => rfl
  | cons w ws ih =>
    rw [loadWords, if_pos (Nat.lt_of_le_of_lt (Nat.le_add_right a k) h)]
    cases k with
    | zero => exact (loadWords_read_below (Nat.lt_add_one a) ws _).trans (Memory.read_write_same m a w)
    | succ k =>
      have hother : (m.write a w).read (a + (k + 1)) = m.read (a + (k + 1)) :=
        Memory.read_write_other _ _ _ _ (by omega)
      rw [← Nat.succ_add_eq_add_succ a k] at h hother ⊢
      rw [ih h, hother, List.getElem?_cons_succ]

theorem loadWords_wf (a : Nat) (ws : List Word) {m : Memory} (h : m.wf) : (loadWords a ws m).wf := by
  induction ws generalizing a m with
  | nil => exact h
  | cons w ws ih =>
    rw [loadWords]
    split
    case isTrue ha => exact ih (a + 1) (Memory.write_wf m a w ha h)
    case isFalse => exact h

/-! ### One image (R182) -/

theorem loadImage_frame (bytes : List Byte) (s : State) :
    loadImage bytes s = { s with mem := (loadImage bytes s).mem } := by
  unfold loadImage
  split <;> rfl

/-- A stream without a whole first word has no origin, and loads nothing (D20). -/
theorem loadImage_short {bytes : List Byte} (h : bytes.length < 2) (s : State) : loadImage bytes s = s := by
  have hnone : wireWords bytes = [] := List.eq_nil_of_length_eq_zero (by rw [wireWords_length]; omega)
  rw [loadImage, hnone]

theorem loadImage_mem_wf (bytes : List Byte) {s : State} (h : s.mem.wf) : (loadImage bytes s).mem.wf := by
  unfold loadImage
  split
  · exact h
  · exact loadWords_wf _ _ h

theorem loadImage_inv (bytes : List Byte) {s : State} (h : s.Inv) : (loadImage bytes s).Inv := by
  have hmem := loadImage_mem_wf bytes h.memory_wf
  obtain ⟨-, hrunning, hlink, hputs, hputsp⟩ := h
  rw [loadImage_frame]
  exact ⟨hmem, hrunning, hlink, hputs, hputsp⟩

section
variable (hi lo : Byte) (rest : List Byte) (s : State) {a : Word}

theorem loadImage_peek_below (h : a.toNat < (wireWord hi lo).toNat) :
    (loadImage (hi :: lo :: rest) s).peek a = s.peek a :=
  loadWords_read_below h _ _

theorem loadImage_peek_from (h : (wireWord hi lo).toNat ≤ a.toNat) :
    (loadImage (hi :: lo :: rest) s).peek a =
      (wireWords rest)[a.toNat - (wireWord hi lo).toNat]?.getD (s.peek a) := by
  have hadd : (wireWord hi lo).toNat + (a.toNat - (wireWord hi lo).toNat) = a.toNat := Nat.add_sub_cancel' h
  have hread := loadWords_read_add (hadd.symm ▸ word_lt_memWords a) (wireWords rest) s.mem
  rwa [hadd] at hread

end

/-- Settles O39: an address reads what its place after the origin holds in the stream, by the words that are written. -/
theorem loadImageWritesTheStreamFromItsOrigin : Obligations.LoadImageWritesTheStreamFromItsOrigin := by
  intro bytes s
  refine ⟨loadImage_frame bytes s, fun hshort => loadImage_short hshort s, fun hlen o a ho => ?_⟩
  obtain ⟨hi, _, rfl⟩ := List.exists_cons_of_length_pos (Nat.zero_lt_of_lt hlen)
  obtain ⟨lo, rest, rfl⟩ := List.exists_cons_of_length_pos (Nat.lt_of_succ_lt_succ hlen)
  have horigin : o = (wireWord hi lo).toNat := ho.trans (wireWord_toNat hi lo).symm
  subst horigin
  simp only [List.length_cons]
  refine ⟨fun ⟨hle, hwhole⟩ => ?inside, fun houtside => ?outside⟩
  case inside =>
    rw [loadImage_peek_from hi lo rest s hle, wireWords_getElem? (by omega)]
    exact wireWord_toNat _ _
  case outside =>
    by_cases hle : (wireWord hi lo).toNat ≤ a.toNat
    · rw [loadImage_peek_from hi lo rest s hle, wireWords_getElem?_none (by omega)]
      rfl
    · exact loadImage_peek_below hi lo rest s (Nat.lt_of_not_le hle)

/-! ### The images of a launch (R185, R186) -/

/-- What every image keeps, the loading of images keeps. -/
theorem loadImages_keeps (P : State → Prop) (hload : ∀ bytes s, P s → P (loadImage bytes s))
    {images : List (Option (List Byte))} {s t : State} (hs : P s) (h : loadImages images s = some t) : P t := by
  induction images generalizing s with
  | nil => cases h; exact hs
  | cons image images ih =>
    cases image with
    | none => cases h
    | some bytes => exact ih (hload bytes s hs) h

theorem loadImages_of_none_mem {images : List (Option (List Byte))} (h : none ∈ images) (s : State) :
    loadImages images s = none := by
  induction images generalizing s with
  | nil => cases h
  | cons image images ih =>
    cases image with
    | none => rfl
    | some bytes => exact ih (by simpa using h) (loadImage bytes s)

theorem loadImages_map_some (streams : List (List Byte)) (s : State) :
    loadImages (streams.map some) s = some (streams.foldl (fun s b => loadImage b s) s) := by
  induction streams generalizing s with
  | nil => rfl
  | cons bytes streams ih => exact ih (loadImage bytes s)

theorem loadImages_frame {images : List (Option (List Byte))} {s t : State} (h : loadImages images s = some t) :
    ∃ mem, t = { s with mem := mem } := by
  refine loadImages_keeps (fun u => ∃ mem, u = { s with mem := mem }) (fun bytes u hu => ?_) ⟨s.mem, rfl⟩ h
  obtain ⟨mem, rfl⟩ := hu
  exact ⟨_, loadImage_frame bytes _⟩

/-- Settles O40: by induction on the images; what is launched is the reset state with other memory. -/
theorem launchAppliesTheImagesInOrder : Obligations.LaunchAppliesTheImagesInOrder := by
  intro regs inQ host images
  refine ⟨fun hfails => loadImages_of_none_mem hfails _, fun streams hstreams => ?order, fun s h => ?entry⟩
  case order => rw [launch, hstreams, loadImages_map_some]
  case entry =>
    obtain ⟨mem, rfl⟩ := loadImages_frame h
    exact ⟨rfl, rfl, rfl, rfl, rfl, rfl⟩

/-! ### Runs (R180) -/

/-- What every step keeps holds in every state of a run from a state where it holds. -/
theorem Reaches.keeps {P : State → Prop} (hstep : ∀ s t, P s → step s = .next t → P t) {s t : State}
    (h : Reaches s t) (hs : P s) : P t := by
  induction h with
  | refl s => exact hs
  | head hnext _ ih => exact ih (hstep _ _ hs hnext)

theorem launch_inv {regs : Vector Word 8} {inQ : List Byte} {host : HostPlan} {images : List (Option (List Byte))}
    {s : State} (h : launch regs inQ host images = some s) : s.Inv :=
  loadImages_keeps State.Inv (fun bytes _ hs => loadImage_inv bytes hs) (resetWith_inv regs inQ host) h

/-- Settles O50: a launch has the invariant, and `stepKeepsTheStateWellFormed` carries it along the run. -/
theorem runsStayWellFormed : Obligations.RunsStayWellFormed :=
  fun _ _ _ _ _ _ hlaunch hreaches => hreaches.keeps stepKeepsTheStateWellFormed (launch_inv hlaunch)

end Sys2Proof.Machine
end
